-- ==== Sys2Proof/Word.lean ====
section
/-! DEFINITION. The word types of the machine: every register value, address and memory cell is a 16-bit
word, and a Console byte has 8 bits (00_scope.md R12). -/

namespace Sys2Proof

/-- A 16-bit word: a register value, an address or a memory cell (R11, R12). -/
abbrev Word := BitVec 16

/-- An 8-bit byte, which exists only at the Console interface and in DDR, OUT, PUTS and PUTSP (R52, R53). -/
abbrev Byte := BitVec 8

/-- A 3-bit register field; value i names Ri (R74). -/
abbrev RegIdx := BitVec 3

end Sys2Proof
end

