-- ==== Sys2Proof/Syntax.lean ====
section
/-! DEFINITION. The instructions: one constructor per row of spec/opcode_table.json (30_encoding.md R81).
The rows RET, GETC, OUT, PUTS, IN, PUTSP and HALT, which the table marks as other names of words of JMP and
TRAP, are constructors too (DESIGN CHOICE, safe: log 10). -/

namespace Sys2Proof

/-- The sixteen opcodes by name (R72). JSR and JSRR share one. -/
inductive Opcode
  | br | add | ld | st | jsr | and | ldr | str | rti | not | ldi | sti | jmp | res | lea | trap
  deriving DecidableEq, Repr

/-- The six native trap services of the fixed vector table (R151). -/
inductive Service
  | getc | out | puts | inChar | putsp | halt
  deriving DecidableEq, Repr

/-- A decoded instruction. Register fields are 3-bit indices and offsets are already sign-extended 16-bit
words (R81). -/
inductive Instr
  /-- BR (R120): the mask n z p and PCoffset9. -/
  | br (nzp : BitVec 3) (off9 : Word)
  /-- ADD, register mode (R110). -/
  | addReg (dr sr1 sr2 : RegIdx)
  /-- ADD, immediate mode (R111). -/
  | addImm (dr sr1 : RegIdx) (imm5 : Word)
  /-- LD (R130). -/
  | ld (dr : RegIdx) (off9 : Word)
  /-- ST (R134). -/
  | st (sr : RegIdx) (off9 : Word)
  /-- JSR (R122). -/
  | jsr (off11 : Word)
  /-- JSRR (R123). -/
  | jsrr (baseR : RegIdx)
  /-- AND, register mode (R112). -/
  | andReg (dr sr1 sr2 : RegIdx)
  /-- AND, immediate mode (R113). -/
  | andImm (dr sr1 : RegIdx) (imm5 : Word)
  /-- LDR (R132). -/
  | ldr (dr baseR : RegIdx) (off6 : Word)
  /-- STR (R136). -/
  | str (sr baseR : RegIdx) (off6 : Word)
  /-- RTI, a reserved opcode, with its whole word (R170). -/
  | rti (word : Word)
  /-- NOT (R114). -/
  | not (dr sr : RegIdx)
  /-- LDI (R131). -/
  | ldi (dr : RegIdx) (off9 : Word)
  /-- STI (R135). -/
  | sti (sr : RegIdx) (off9 : Word)
  /-- JMP (R121); the decoder gives `ret` for BaseR = 7. -/
  | jmp (baseR : RegIdx)
  /-- RES, a reserved opcode, with its whole word (R171). -/
  | res (word : Word)
  /-- LEA (R133). -/
  | lea (dr : RegIdx) (off9 : Word)
  /-- TRAP (R150); the decoder gives one of the six constructors below for a vector of the table. -/
  | trap (vect8 : Byte)
  /-- RET, that is JMP R7 (R87, R121). -/
  | ret
  /-- GETC, that is TRAP x20 (R152). -/
  | trapGetc
  /-- OUT, that is TRAP x21 (R154). -/
  | trapOut
  /-- PUTS, that is TRAP x22 (R155). -/
  | trapPuts
  /-- IN, that is TRAP x23 (R156). -/
  | trapIn
  /-- PUTSP, that is TRAP x24 (R158). -/
  | trapPutsp
  /-- HALT, that is TRAP x25 (R159). -/
  | trapHalt
  deriving DecidableEq, Repr

end Sys2Proof
end

