-- ==== Sys2Proof/Decode.lean ====
section
/-! DEFINITION. The decoder, a total pure function of the instruction word (30_encoding.md R81, R82), and
after it an encoder written from the same format table (R73). -/

namespace Sys2Proof

/-! ## Tables -/

/-- The numeric opcode values (R72), as the one named configuration table that R72 asks for. -/
def opcodeTable : List (BitVec 4 × Opcode) :=
  [(0x0#4, .br), (0x1#4, .add), (0x2#4, .ld), (0x3#4, .st), (0x4#4, .jsr), (0x5#4, .and), (0x6#4, .ldr),
   (0x7#4, .str), (0x8#4, .rti), (0x9#4, .not), (0xA#4, .ldi), (0xB#4, .sti), (0xC#4, .jmp), (0xD#4, .res),
   (0xE#4, .lea), (0xF#4, .trap)]

/-- The opcode that four bits select (R71). All sixteen values stand in the table, so the last default is
never taken (`opcodeOf_opcodeBits` and `opcodeBits_opcodeOf`). -/
def opcodeOf (bits : BitVec 4) : Opcode :=
  ((opcodeTable.find? (fun row => row.1 == bits)).map (·.2)).getD .res

/-- The four bits of an opcode, read from the same table (R72). -/
def opcodeBits (op : Opcode) : BitVec 4 :=
  ((opcodeTable.find? (fun row => row.2 == op)).map (·.1)).getD 0#4

/-- The fixed trap vector table (R151, R11). -/
def trapTable : List (Byte × Service) :=
  [(0x20#8, .getc), (0x21#8, .out), (0x22#8, .puts), (0x23#8, .inChar), (0x24#8, .putsp), (0x25#8, .halt)]

/-- The service a trap vector selects, or none for an unknown vector (R151, R160). -/
def serviceOf (v : Byte) : Option Service :=
  (trapTable.find? (fun row => row.1 == v)).map (·.2)

/-- The vector of a service (R151). -/
def vectorOf (k : Service) : Byte :=
  ((trapTable.find? (fun row => row.2 == k)).map (·.1)).getD 0#8

/-! ## Fields -/

/-- The field of `len` bits whose lowest bit is `lo` (R12). -/
def bitField (w : Word) (lo len : Nat) : BitVec len := w.extractLsb' lo len

/-- sext_w: two's-complement extension to 16 bits (R13). -/
def sext {n : Nat} (v : BitVec n) : Word := v.signExtend 16

/-- zext_16: extension to 16 bits by zeros (R13). -/
def zext {n : Nat} (v : BitVec n) : Word := v.setWidth 16

/-- The link register R7 (R30). -/
def linkReg : RegIdx := 7#3

/-! ## The decoder -/

/-- The constructor of a service's TRAP word. -/
def serviceInstr : Service → Instr
  | .getc => .trapGetc
  | .out => .trapOut
  | .puts => .trapPuts
  | .inChar => .trapIn
  | .putsp => .trapPutsp
  | .halt => .trapHalt

/-- A TRAP word by its vector: a vector of the table gives that service's constructor (R151; log 10). -/
def decodeTrap (v : Byte) : Instr :=
  match serviceOf v with
  | some k => serviceInstr k
  | none => .trap v

/-- A JMP word by its base register: BaseR = 7 is RET (R121; log 10). -/
def decodeJump (baseR : RegIdx) : Instr :=
  if baseR = linkReg then .ret else .jmp baseR

/-- Decode(w) (R82). Bits that a format does not use are ignored (R83). -/
def decode (w : Word) : Instr :=
  let r11_9 := bitField w 9 3
  let r8_6 := bitField w 6 3
  let r2_0 := bitField w 0 3
  let off9 := sext (bitField w 0 9)
  match opcodeOf (bitField w 12 4) with
  | .br => .br r11_9 off9
  | .add => if w.getLsbD 5 then .addImm r11_9 r8_6 (sext (bitField w 0 5)) else .addReg r11_9 r8_6 r2_0
  | .ld => .ld r11_9 off9
  | .st => .st r11_9 off9
  | .jsr => if w.getLsbD 11 then .jsr (sext (bitField w 0 11)) else .jsrr r8_6
  | .and => if w.getLsbD 5 then .andImm r11_9 r8_6 (sext (bitField w 0 5)) else .andReg r11_9 r8_6 r2_0
  | .ldr => .ldr r11_9 r8_6 (sext (bitField w 0 6))
  | .str => .str r11_9 r8_6 (sext (bitField w 0 6))
  | .rti => .rti w
  | .not => .not r11_9 r8_6
  | .ldi => .ldi r11_9 off9
  | .sti => .sti r11_9 off9
  | .jmp => decodeJump r8_6
  | .res => .res w
  | .lea => .lea r11_9 off9
  | .trap => decodeTrap (bitField w 0 8)

/-- The instruction the decoder reads from a word numbered as spec/opcode_table.json numbers it. Every
instruction is exactly one 16-bit word (R70), so a longer one does not exist. -/
def decodeTableWord (nbits w : Nat) : Option Instr :=
  if nbits ≤ 16 then some (decode (BitVec.ofNat 16 (w % 2 ^ nbits))) else none

/-! ## The encoder -/

/-- Format OPR (R73): bits 4:3 are written as zero ("reserved-zero"). -/
def encodeOpr (op : Opcode) (dr sr1 sr2 : RegIdx) : Word :=
  opcodeBits op ++ dr ++ sr1 ++ 0#3 ++ sr2

/-- Format OPI (R73). -/
def encodeOpi (op : Opcode) (dr sr1 : RegIdx) (imm5 : Word) : Word :=
  opcodeBits op ++ dr ++ sr1 ++ 1#1 ++ bitField imm5 0 5

/-- Formats PC9 and BR (R73): a 3-bit field and PCoffset9. -/
def encodePc9 (op : Opcode) (r : BitVec 3) (off9 : Word) : Word :=
  opcodeBits op ++ r ++ bitField off9 0 9

/-- Format BASE6 (R73). -/
def encodeBase6 (op : Opcode) (r baseR : RegIdx) (off6 : Word) : Word :=
  opcodeBits op ++ r ++ baseR ++ bitField off6 0 6

/-- Formats JMP and JSRR (R73): three ignored bits (bit 11 is 0 for JSRR), BaseR, six ignored bits. -/
def encodeBase (op : Opcode) (baseR : RegIdx) : Word :=
  opcodeBits op ++ 0#3 ++ baseR ++ 0#6

/-- Format TRAP (R73): four ignored bits, then trapvect8. -/
def encodeTrap (v : Byte) : Word :=
  opcodeBits .trap ++ 0#4 ++ v

/-- The word of a well-formed instruction. Ignored bits are written as zero, but for NOT's, which are
nominally ones (R73; DESIGN CHOICE, safe: log 15). -/
def encode : Instr → Word
  | .br nzp off9 => encodePc9 .br nzp off9
  | .addReg dr sr1 sr2 => encodeOpr .add dr sr1 sr2
  | .addImm dr sr1 imm5 => encodeOpi .add dr sr1 imm5
  | .ld dr off9 => encodePc9 .ld dr off9
  | .st sr off9 => encodePc9 .st sr off9
  | .jsr off11 => opcodeBits .jsr ++ 1#1 ++ bitField off11 0 11
  | .jsrr baseR => encodeBase .jsr baseR
  | .andReg dr sr1 sr2 => encodeOpr .and dr sr1 sr2
  | .andImm dr sr1 imm5 => encodeOpi .and dr sr1 imm5
  | .ldr dr baseR off6 => encodeBase6 .ldr dr baseR off6
  | .str sr baseR off6 => encodeBase6 .str sr baseR off6
  | .rti word => word
  | .not dr sr => opcodeBits .not ++ dr ++ sr ++ 63#6
  | .ldi dr off9 => encodePc9 .ldi dr off9
  | .sti sr off9 => encodePc9 .sti sr off9
  | .jmp baseR => encodeBase .jmp baseR
  | .res word => word
  | .lea dr off9 => encodePc9 .lea dr off9
  | .trap v => encodeTrap v
  | .ret => encodeBase .jmp linkReg
  | .trapGetc => encodeTrap (vectorOf .getc)
  | .trapOut => encodeTrap (vectorOf .out)
  | .trapPuts => encodeTrap (vectorOf .puts)
  | .trapIn => encodeTrap (vectorOf .inChar)
  | .trapPutsp => encodeTrap (vectorOf .putsp)
  | .trapHalt => encodeTrap (vectorOf .halt)

end Sys2Proof
end

