-- ==== Sys2Proof/Config.lean ====
section
/-! DEFINITION. The implementation parameters the spec leaves to the host (00_scope.md R11). -/

namespace Sys2Proof.Config

/-- The default of START_PC (R11, R214). A launch may choose any other start address. -/
def startPcDefault : Word := 0x3000#16

/-- IN_PROMPT: "a finite byte sequence emitted by IN before it waits; OPEN" (R11, D11). It has no body, so
that no claim can rest on its contents. DESIGN CHOICE, safe (log 9). -/
opaque inPrompt : List Byte

end Sys2Proof.Config
end

