-- ==== Sys2Proof/Machine/State.lean ====
section
/-! DEFINITION. The architectural state as plain data (10_state.md), the reasons a step can stop, and the
state after reset. -/

namespace Sys2Proof.Machine

/-- COND holds exactly one of N, Z and P (R34). Its one-hot bits are `Cond.bits` (Flags.lean; log 18). -/
inductive Cond
  | n | z | p
  deriving DecidableEq, Repr

/-- The two services that wait for a console character (R40). -/
inductive WaitKind
  | getc | inChar
  deriving DecidableEq, Repr

/-- The two fault causes (R180). -/
inductive FaultCause
  | reservedOpcode | unknownTrap
  deriving DecidableEq, Repr

/-- The `detail` of a FaultRecord: "the 4-bit opcode for ReservedOpcode, or the 8-bit trapvect8 for
UnknownTrap" (R41; DESIGN CHOICE, safe: log 12). -/
inductive FaultDetail
  | opcode (bits : BitVec 4)
  | trapVector (v : Byte)
  deriving DecidableEq, Repr

/-- A FaultRecord (R41). -/
structure FaultRecord where
  cause  : FaultCause
  addr   : Word
  instr  : Word
  detail : FaultDetail
  deriving DecidableEq, Repr

/-- The run state (R40). -/
inductive RunState
  | running
  | waiting (k : WaitKind)
  | halted
  | faulted (r : FaultRecord)
  deriving DecidableEq, Repr

/-- One addressable unit with its address: the unit is the 16-bit word (R50, R52; DESIGN CHOICE, safe:
log 1). -/
abbrev Cell := Nat × Word

/-- Memory: the cells that differ from what an unlisted address reads as, addresses strictly rising (R42;
`Memory.wf` in Ops.lean). -/
abbrev Memory := List Cell

/-- The Console interface state (R44). -/
structure Console where
  /-- the bytes that have arrived and not been consumed, oldest first -/
  inQueue  : List Byte
  /-- whether the host has ended input -/
  inClosed : Bool
  /-- every byte emitted so far, in order -/
  out      : List Byte
  deriving DecidableEq, Repr

/-- A move of the host (R188); there is no other (R193). -/
inductive HostMove
  | input (b : Byte)
  | close
  deriving DecidableEq, Repr

/-- The machine state (10_state.md): register file, memory, run state and Console, and the host schedule. -/
structure State where
  /-- R0 to R7 (R30) -/
  regs    : Vector Word 8
  /-- the program counter (R32) -/
  pc      : Word
  /-- the condition flags (R34) -/
  cond    : Cond
  /-- the 65,536 cells, the device registers among them (R42, R43) -/
  mem     : Memory
  /-- the run state (R40) -/
  run     : RunState
  /-- the Console interface state (R44) -/
  console : Console
  /-- THE MODEL'S OWN: the host moves still to come, one turn for each CORE step (R188; DESIGN CHOICE,
  safe: log 5). No instruction reads or writes it. -/
  host    : List (List HostMove)
  deriving DecidableEq, Repr

/-- Why the CORE has no step. None of these is a fault of the spec: the spec's two faults are the run state
FAULTED, a next state. DESIGN CHOICE, safe (log 7). -/
inductive Fault
  /-- Raised by `step` in HALTED: "the CORE has no step" (R103). Safe. -/
  | halted
  /-- Raised by `step` in FAULTED(record): "the CORE has no step" (R104). Safe. -/
  | faulted (r : FaultRecord)
  /-- Raised by `step` in WAITING(k) with no input, input open and no host turn to come: the CORE "is held
  until a host move lifts the hold" (R102). Safe. -/
  | held (k : WaitKind)
  deriving DecidableEq, Repr

/-- Why the model gives no next state at all. -/
inductive Refusal
  /-- Raised by `exec` for an instruction without a meaning; no arm does so in this model. Safe. -/
  | notModelled (mnemonic : String)
  /-- Raised by `launch` for an image that runs past 0xFFFF: the launch is refused, "the VM never starts
  executing" (R213). Safe. -/
  | loadFailure (origin : Word)
  deriving DecidableEq, Repr

/-- The state right after reset with START_PC at its default and no image (R46, R210; logs 3, 4, 5). -/
def State.reset : State where
  regs := Vector.replicate 8 0#16
  pc := Config.startPcDefault
  cond := .z
  mem := []
  run := .running
  console := { inQueue := [], inClosed := false, out := [] }
  host := []

end Sys2Proof.Machine
end

