-- ==== Sys2Proof/Machine/Ops.lean ====
section
/-! DEFINITION. The named operations over registers, memory, the Console and the run state: MemRead and
MemWrite (20_memory.md), ConsolePoll and ConsoleEmit (60_exceptions.md R189, R190), fault entry (R181) and
the trap link (R185), and fetch (40_execution_loop.md R101). -/

namespace Sys2Proof.Machine

/-! ## Field updates -/

/-- Replace the program counter (R14). -/
def State.setPc (s : State) (v : Word) : State := { s with pc := v }
/-- Replace COND. Only `State.updateFlags` calls it (R35). -/
def State.setCond (s : State) (c : Cond) : State := { s with cond := c }
/-- Replace the stored cells. -/
def State.setMem (s : State) (m : Memory) : State := { s with mem := m }
/-- Replace the run state (R40). -/
def State.setRun (s : State) (r : RunState) : State := { s with run := r }
/-- Replace the Console interface state (R44). -/
def State.setConsole (s : State) (c : Console) : State := { s with console := c }
/-- Replace the host schedule (log 5). -/
def State.setHost (s : State) (h : List (List HostMove)) : State := { s with host := h }

/-! ## General registers -/

/-- x[i] (R14). No register is hardwired (R30). -/
def State.reg (s : State) (r : RegIdx) : Word := s.regs[r.toNat]
/-- x[i] <- v (R14). -/
def State.setReg (s : State) (r : RegIdx) (v : Word) : State := { s with regs := s.regs.set r.toNat v }

/-! ## Memory cells -/

/-- What an unlisted address reads as: the reset contents of every cell (R46). -/
def Memory.unlisted : Word := 0x0000#16

/-- The stored contents of a cell. -/
def Memory.get : Memory → Nat → Word
  | [], _ => Memory.unlisted
  | (k, w) :: m, a => if k = a then w else Memory.get m a

/-- Drop the entry of an address, so that it reads as an unlisted one. -/
def Memory.erase : Memory → Nat → Memory
  | [], _ => []
  | (k, w) :: m, a => if k = a then Memory.erase m a else (k, w) :: Memory.erase m a

/-- Insert an entry before the first one with a greater address. -/
def Memory.insert : Memory → Nat → Word → Memory
  | [], a, v => [(a, v)]
  | (k, w) :: m, a, v => if a < k then (a, v) :: (k, w) :: m else (k, w) :: Memory.insert m a v

/-- Replace the contents of one cell. Writing the unlisted value removes the entry. -/
def Memory.put (m : Memory) (a : Nat) (v : Word) : Memory :=
  if v = Memory.unlisted then Memory.erase m a else Memory.insert (Memory.erase m a) a v

/-- Addresses strictly rise from `lo` on, lie below 65,536 (R50), and no entry is the unlisted value. -/
def Memory.wfFrom : Nat → Memory → Bool
  | _, [] => true
  | lo, (k, w) :: m => decide (lo ≤ k) && decide (k < 65536) && w != Memory.unlisted && Memory.wfFrom (k + 1) m

/-- The canonical form of memory. -/
def Memory.wf (m : Memory) : Bool := Memory.wfFrom 0 m

/-- mem[a]: the stored contents of cell a, without interception (R15). -/
def State.cell (s : State) (a : Word) : Word := Memory.get s.mem a.toNat
/-- mem[a] <- v, without interception (R15). -/
def State.setCell (s : State) (a v : Word) : State := s.setMem (Memory.put s.mem a.toNat v)

/-! ## The Console -/

/-- What ConsolePoll() returns (R7). -/
inductive PollResult
  | char (b : Byte)
  | noInput
  | endOfInput
  deriving DecidableEq, Repr

/-- ConsolePoll() (R189): it consumes the byte it returns. -/
def State.consolePoll (s : State) : PollResult × State :=
  match s.console.inQueue with
  | b :: rest => (.char b, s.setConsole { s.console with inQueue := rest })
  | [] => if s.console.inClosed then (.endOfInput, s) else (.noInput, s)

/-- ConsoleEmit(b) (R190). -/
def State.consoleEmit (s : State) (b : Byte) : State :=
  s.setConsole { s.console with out := s.console.out ++ [b] }

/-- ConsoleEmit of each byte in order (R156). -/
def State.consoleEmitAll (s : State) (bs : List Byte) : State :=
  bs.foldl State.consoleEmit s

/-- The condition under which a WAITING step is enabled (R102). -/
def State.inputReady (s : State) : Bool := !s.console.inQueue.isEmpty || s.console.inClosed

/-! ## MemRead and MemWrite -/

/-- The keyboard status register (R63). -/
def kbsrAddr : Word := 0xFE00#16
/-- The keyboard data register (R63). -/
def kbdrAddr : Word := 0xFE02#16
/-- The display status register (R63): plain storage (R58). -/
def dsrAddr : Word := 0xFE04#16
/-- The display data register (R63). -/
def ddrAddr : Word := 0xFE06#16
/-- EOF_CHAR, R0's value after GETC or IN at end of input (R11). -/
def eofChar : Word := 0x0000#16

/-- v[7:0] (R12). -/
def lowByte (v : Word) : Byte := bitField v 0 8
/-- v[15:8] (R12). -/
def highByte (v : Word) : Byte := bitField v 8 8

/-- KbsrPoll() (R56). -/
def State.kbsrPoll (s : State) : State :=
  match s.consolePoll with
  | (.char b, s') => (s'.setCell kbsrAddr 0x8000#16).setCell kbdrAddr (zext b)
  | (.noInput, s') => s'.setCell kbsrAddr 0x0000#16
  | (.endOfInput, s') => s'.setCell kbsrAddr 0x0000#16

/-- The state a MemRead leaves: a read of KBSR polls first, no other read has a side effect (R55). -/
def State.afterRead (s : State) (a : Word) : State :=
  if a = kbsrAddr then s.kbsrPoll else s

/-- MemRead(addr, 1) (R55): the word, and the state after the read. -/
def State.memRead (s : State) (a : Word) : Word × State :=
  ((s.afterRead a).cell a, s.afterRead a)

/-- MemWrite(addr, 1, v) (R57). -/
def State.memWrite (s : State) (a v : Word) : State :=
  if a = ddrAddr then (s.setCell a v).consoleEmit (lowByte v) else s.setCell a v

/-! ## Fetch -/

/-- The fetch half of StepRunning() (R101): the word at pc through MemRead (R68), and the incremented pc. -/
def State.fetch (s : State) : Word × State :=
  let (w, s') := s.memRead s.pc
  (w, s'.setPc (s'.pc + 1#16))

/-! ## Taking an exception, and returning from one -/

/-- raise F(record): run <- FAULTED(record), no other state is written (R181). -/
def State.raise (s : State) (r : FaultRecord) : State := s.setRun (.faulted r)

/-- The address of the instruction being executed: the incremented pc minus 1 (R41). -/
def State.instrAddr (s : State) : Word := s.pc - 1#16

/-- The word of the instruction being executed, as its cell holds it: fetch has read this cell after any
poll, and nothing before a dispatch writes it (R101, R68; DEDUCED, safe: log 11). -/
def State.instrWord (s : State) : Word := s.cell s.instrAddr

/-- The ReservedOpcode fault of a reserved word (R170, R171, R180). -/
def State.raiseReserved (s : State) (word : Word) (op : Opcode) : State :=
  s.raise { cause := .reservedOpcode, addr := s.instrAddr, instr := word, detail := .opcode (opcodeBits op) }

/-- The UnknownTrap fault (R160, R180). -/
def State.raiseUnknownTrap (s : State) (v : Byte) : State :=
  s.raise { cause := .unknownTrap, addr := s.instrAddr, instr := s.instrWord, detail := .trapVector v }

/-- Entry into a trap saves exactly the incremented pc, in R7 (R150, R185). JSR and JSRR save it the same
way (R122, R123). -/
def State.linkPc (s : State) : State := s.setReg linkReg s.pc

/-- wait(kind) (R16): a GETC or IN waits for its completion step. -/
def State.wait (s : State) (k : WaitKind) : State := s.setRun (.waiting k)

/-- The implicit return of a waiting trap: the run goes on at pc, and nothing is restored (R162, R186). -/
def State.resume (s : State) : State := s.setRun .running

/-- The code of a fault cause (R41, R180). -/
def FaultCause.code : FaultCause → Nat
  | .reservedOpcode => 1
  | .unknownTrap => 2

end Sys2Proof.Machine
end

