-- ==== Sys2Proof/Machine/Flags.lean ====
section
/-! DEFINITION. The condition flags: update_flags and the one-hot bits BR reads (10_state.md R34-R37). -/

namespace Sys2Proof.Machine

/-- COND as a 3-bit one-hot value: N = 0b100, Z = 0b010, P = 0b001 (R34). -/
def Cond.bits : Cond → BitVec 3
  | .n => 0b100#3
  | .z => 0b010#3
  | .p => 0b001#3

/-- The flag that update_flags gives for a value (R35). -/
def condOf (v : Word) : Cond :=
  if v = 0x0000#16 then .z else if v.getLsbD 15 then .n else .p

/-- update_flags(v), the only way COND changes during execution (R35). -/
def State.updateFlags (s : State) (v : Word) : State := s.setCond (condOf v)

/-- x[DR] <- v, then update_flags(x[DR]): what every flag-setting instruction ends with (R36). -/
def State.writeDr (s : State) (dr : RegIdx) (v : Word) : State :=
  let s' := s.setReg dr v
  s'.updateFlags (s'.reg dr)

/-- (bits[11:9] AND COND) != 0b000 (R120). -/
def State.branchTaken (s : State) (nzp : BitVec 3) : Bool := (nzp &&& s.cond.bits) != 0#3

end Sys2Proof.Machine
end

