-- ==== Sys2Proof/Machine/Operands.lean ====
section
/-! DEFINITION. The addressing modes, each computed modulo 2^16 (43_load_store.md R137). -/

namespace Sys2Proof.Machine

/-- PC-relative: the incremented pc plus an offset (R106, R137). -/
def State.pcRelative (s : State) (off : Word) : Word := s.pc + off

/-- Base plus offset: x[BaseR] + offset6 (R137). -/
def State.basePlus (s : State) (baseR : RegIdx) (off6 : Word) : Word := s.reg baseR + off6

/-- Indirect: the word at pc + PCoffset9 is the address; reading it is a MemRead (R137, R62). -/
def State.indirect (s : State) (off9 : Word) : Word × State := s.memRead (s.pcRelative off9)

end Sys2Proof.Machine
end

