-- ==== Sys2Proof/Machine/Control.lean ====
section
/-! DEFINITION. Control transfer: BR, JMP and RET, JSR, JSRR (42_control.md). -/

namespace Sys2Proof.Machine

/-- pc <- x[BaseR] (R121, R123). -/
def State.jumpReg (s : State) (baseR : RegIdx) : State := s.setPc (s.reg baseR)

/-- BR (R120). -/
def execBr (nzp : BitVec 3) (off9 : Word) (s : State) : Host.Outcome State Fault Refusal :=
  .next (if s.branchTaken nzp then s.setPc (s.pcRelative off9) else s)

/-- JMP (R121). -/
def execJmp (baseR : RegIdx) (s : State) : Host.Outcome State Fault Refusal :=
  .next (s.jumpReg baseR)

/-- RET, that is JMP R7 (R121). -/
def execRet (s : State) : Host.Outcome State Fault Refusal :=
  .next (s.jumpReg linkReg)

/-- JSR (R122): the return address is saved before the jump. -/
def execJsr (off11 : Word) (s : State) : Host.Outcome State Fault Refusal :=
  let s' := s.linkPc
  .next (s'.setPc (s'.pcRelative off11))

/-- JSRR (R123): sequential, so BaseR is read after R7 was written. -/
def execJsrr (baseR : RegIdx) (s : State) : Host.Outcome State Fault Refusal :=
  .next (s.linkPc.jumpReg baseR)

end Sys2Proof.Machine
end

