-- ==== Sys2Proof/Machine/LoadStore.lean ====
section
/-! DEFINITION. Loads, stores and LEA (43_load_store.md). Every read is MemRead and every write MemWrite. -/

namespace Sys2Proof.Machine

/-- A load: x[DR] <- MemRead(ea, 1), then the flags (R130-R132). -/
def State.load (s : State) (dr : RegIdx) (ea : Word) : State :=
  let (w, s') := s.memRead ea
  s'.writeDr dr w

/-- LD (R130). -/
def execLd (dr : RegIdx) (off9 : Word) (s : State) : Host.Outcome State Fault Refusal :=
  .next (s.load dr (s.pcRelative off9))

/-- LDI (R131): the pointer is read first, and both reads go through MMIO. -/
def execLdi (dr : RegIdx) (off9 : Word) (s : State) : Host.Outcome State Fault Refusal :=
  let (ptr, s') := s.indirect off9
  .next (s'.load dr ptr)

/-- LDR (R132): the address is computed before DR is written. -/
def execLdr (dr baseR : RegIdx) (off6 : Word) (s : State) : Host.Outcome State Fault Refusal :=
  .next (s.load dr (s.basePlus baseR off6))

/-- LEA (R133): no memory access. -/
def execLea (dr : RegIdx) (off9 : Word) (s : State) : Host.Outcome State Fault Refusal :=
  .next (s.writeDr dr (s.pcRelative off9))

/-- ST (R134). -/
def execSt (sr : RegIdx) (off9 : Word) (s : State) : Host.Outcome State Fault Refusal :=
  .next (s.memWrite (s.pcRelative off9) (s.reg sr))

/-- STI (R135): the pointer read may poll; the write goes to the pointer. -/
def execSti (sr : RegIdx) (off9 : Word) (s : State) : Host.Outcome State Fault Refusal :=
  let (ptr, s') := s.indirect off9
  .next (s'.memWrite ptr (s'.reg sr))

/-- STR (R136). -/
def execStr (sr baseR : RegIdx) (off6 : Word) (s : State) : Host.Outcome State Fault Refusal :=
  .next (s.memWrite (s.basePlus baseR off6) (s.reg sr))

end Sys2Proof.Machine
end

