-- ==== Sys2Proof/Machine/Reserved.lean ====
section
/-! DEFINITION. The reserved opcodes RTI and RES (45_reserved.md): each takes the ReservedOpcode fault. -/

namespace Sys2Proof.Machine

/-- RTI (R170). -/
def execRti (word : Word) (s : State) : Host.Outcome State Fault Refusal :=
  .next (s.raiseReserved word .rti)

/-- RES (R171). -/
def execRes (word : Word) (s : State) : Host.Outcome State Fault Refusal :=
  .next (s.raiseReserved word .res)

end Sys2Proof.Machine
end

