-- ==== Sys2Proof/Machine/Services.lean ====
section
/-! DEFINITION. The trap services and the completion of a waiting GETC or IN (44_trap.md). -/

namespace Sys2Proof.Machine

/-- The loop of PUTS from address `a` (R155). The fuel is the spec's own bound on the number of reads; the
scan never uses it up (log 13). -/
def putsScan : Nat → Word → State → State
  | 0, _, s => s
  | n + 1, a, s =>
    let (w, s') := s.memRead a
    if w = 0x0000#16 then s' else putsScan n (a + 1#16) (s'.consoleEmit (lowByte w))

/-- "the scan stops within (length(in_queue) + 2) × 65,536 reads" (R155). -/
def putsBound (s : State) : Nat := (s.console.inQueue.length + 2) * 65536

/-- The loop of PUTSP from address `a` (R158): low byte first, to the first zero byte. -/
def putspScan : Nat → Word → State → State
  | 0, _, s => s
  | n + 1, a, s =>
    let (w, s') := s.memRead a
    if lowByte w = 0x00#8 then s'
    else
      let s₁ := s'.consoleEmit (lowByte w)
      if highByte w = 0x00#8 then s₁
      else putspScan n (a + 1#16) (s₁.consoleEmit (highByte w))

/-- "the scan stops within 65,537 reads" (R158). -/
def putspBound : Nat := 65537

/-- GETC, start (R152). -/
def State.getcStart (s : State) : State := s.wait .getc

/-- OUT (R154). -/
def State.outService (s : State) : State := s.consoleEmit (lowByte (s.reg 0#3))

/-- PUTS (R155). -/
def State.putsService (s : State) : State := putsScan (putsBound s) (s.reg 0#3) s

/-- IN, start (R156): the prompt is emitted before the wait. -/
def State.inStart (s : State) : State := (s.consoleEmitAll Config.inPrompt).wait .inChar

/-- PUTSP (R158). -/
def State.putspService (s : State) : State := putspScan putspBound (s.reg 0#3) s

/-- HALT (R159). -/
def State.haltService (s : State) : State := s.setRun .halted

/-- The native routine of each service (R151). -/
def State.runService (s : State) : Service → State
  | .getc => s.getcStart
  | .out => s.outService
  | .puts => s.putsService
  | .inChar => s.inStart
  | .putsp => s.putspService
  | .halt => s.haltService

/-- TrapDispatch(v) (R151, R160). -/
def State.trapDispatch (s : State) (v : Byte) : State :=
  match serviceOf v with
  | some k => s.runService k
  | none => s.raiseUnknownTrap v

/-- GETC, completion (R153). It is taken only when enabled; with no input and input open the state is left
as it is (DESIGN CHOICE, safe: log 17). -/
def State.getcComplete (s : State) : State :=
  match s.consolePoll with
  | (.char b, s') => (s'.setReg 0#3 (zext b)).resume
  | (.endOfInput, s') => (s'.setReg 0#3 eofChar).resume
  | (.noInput, s') => s'

/-- IN, completion (R157): the character is echoed, end of input is not. -/
def State.inComplete (s : State) : State :=
  match s.consolePoll with
  | (.char b, s') => ((s'.consoleEmit b).setReg 0#3 (zext b)).resume
  | (.endOfInput, s') => (s'.setReg 0#3 eofChar).resume
  | (.noInput, s') => s'

/-- The completion step of a waiting trap (R102). -/
def State.completeWait (s : State) : WaitKind → State
  | .getc => s.getcComplete
  | .inChar => s.inComplete

end Sys2Proof.Machine
end

