-- ==== Sys2Proof/Machine/Trap.lean ====
section
/-! DEFINITION. TRAP (44_trap.md R150): R7 <- pc, then the dispatch. The constructors of the six services
mean what TRAP means for their vector. -/

namespace Sys2Proof.Machine

/-- TRAP (R150). -/
def execTrap (v : Byte) (s : State) : Host.Outcome State Fault Refusal :=
  .next (s.linkPc.trapDispatch v)

/-- GETC (R150, R152). -/
def execTrapGetc (s : State) : Host.Outcome State Fault Refusal := .next s.linkPc.getcStart

/-- OUT (R150, R154). -/
def execTrapOut (s : State) : Host.Outcome State Fault Refusal := .next s.linkPc.outService

/-- PUTS (R150, R155). -/
def execTrapPuts (s : State) : Host.Outcome State Fault Refusal := .next s.linkPc.putsService

/-- IN (R150, R156). -/
def execTrapIn (s : State) : Host.Outcome State Fault Refusal := .next s.linkPc.inStart

/-- PUTSP (R150, R158). -/
def execTrapPutsp (s : State) : Host.Outcome State Fault Refusal := .next s.linkPc.putspService

/-- HALT (R150, R159). -/
def execTrapHalt (s : State) : Host.Outcome State Fault Refusal := .next s.linkPc.haltService

end Sys2Proof.Machine
end

