-- ==== Sys2Proof/Machine/HostPort.lean ====
section
/-! DEFINITION. The host's side: its moves on the Console between CORE steps (60_exceptions.md R188), the
image load and the launch (70_reset_and_hazards.md R210-R214). -/

namespace Sys2Proof.Machine

/-! ## Host moves -/

/-- HostInput(b), which requires input to be open, and HostClose() (R188). An input after the close is no
move and changes nothing (DESIGN CHOICE, safe: log 6). -/
def Console.hostMove (c : Console) : HostMove → Console
  | .input b => if c.inClosed then c else { c with inQueue := c.inQueue ++ [b] }
  | .close => { c with inClosed := true }

/-- The moves of one host turn, in order. -/
def Console.hostMoves (c : Console) (ms : List HostMove) : Console := ms.foldl Console.hostMove c

/-- The host's next turn: the moves that fall before this CORE step (R188; log 5). -/
def State.hostTurn (s : State) : State :=
  match s.host with
  | [] => s
  | ms :: rest => (s.setConsole (s.console.hostMoves ms)).setHost rest

/-! ## Images and launch -/

/-- An image: a sequence of words with a declared origin (R18). -/
structure Image where
  origin : Word
  words  : List Word
  deriving DecidableEq, Repr

/-- Whether `origin + length(words) <= 0x10000` (R211). -/
def Image.fits (im : Image) : Bool := decide (im.origin.toNat + im.words.length ≤ 65536)

/-- The copy loop of load from one address on: it goes to the cells, past the interception (R211). -/
def Memory.copyWords : Memory → Nat → List Word → Memory
  | m, _, [] => m
  | m, a, w :: ws => Memory.copyWords (Memory.put m a w) (a + 1) ws

/-- load(origin, words) (R211). An image that does not fit is a load failure (R213; log 16). -/
def State.loadImage (s : State) (im : Image) : Host.Outcome State Fault Refusal :=
  if im.fits then .next (s.setMem (Memory.copyWords s.mem im.origin.toNat im.words))
  else .refused (.loadFailure im.origin)

/-- Load the images in the order given (R210). -/
def State.loadImages : List Image → State → Host.Outcome State Fault Refusal
  | [], s => .next s
  | im :: ims, s =>
    match s.loadImage im with
    | .next s' => State.loadImages ims s'
    | .fault r => .fault r
    | .refused r => .refused r

/-- What the host chooses at a launch: START_PC and the images (R193), and its side of the Console. -/
structure Launch where
  startPc  : Word
  images   : List Image
  inQueue  : List Byte
  inClosed : Bool
  host     : List (List HostMove)
  deriving DecidableEq, Repr

/-- The state Reset(START_PC) leaves before any image is loaded (R46, R210). -/
def Launch.resetState (l : Launch) : State :=
  { State.reset with
    pc := l.startPc
    console := { inQueue := l.inQueue, inClosed := l.inClosed, out := [] }
    host := l.host }

/-- Reset(START_PC), then the images in the order given (R210). -/
def launch (l : Launch) : Host.Outcome State Fault Refusal := State.loadImages l.images l.resetState

end Sys2Proof.Machine
end

