-- ==== Sys2Proof/Machine/Loop.lean ====
section
/-! DEFINITION. The body of a step in each run state (40_execution_loop.md R101, R102), after the host's
turn. -/

namespace Sys2Proof.Machine

/-- StepRunning() (R101): fetch, increment, decode, execute. -/
def State.stepRunning (s : State) : Host.Outcome State Fault Refusal :=
  let (w, s') := s.fetch
  exec (decode w) s'

/-- The step in WAITING(k) (R102). Enabled, it is the completion. Held, it is the host's turn alone; with no
turn to come the CORE has no step (DESIGN CHOICE, safe: logs 7, 8). -/
def State.stepWaiting (s : State) (k : WaitKind) : Host.Outcome State Fault Refusal :=
  if s.hostTurn.inputReady then .next (s.hostTurn.completeWait k)
  else if s.host.isEmpty then .fault (.held k)
  else .next s.hostTurn

/-- The address from which the next fetch can read a stored word: pc, but for 0xFE00, where the poll
overwrites the cell (R68; log 14). -/
def State.placeablePc (s : State) : Word := if s.pc = kbsrAddr then Config.startPcDefault else s.pc

/-- The word stored where the next fetch reads it, and RUNNING (log 14). -/
def State.placeWord (s : State) (w : Word) : State :=
  ((s.setPc s.placeablePc).setCell s.placeablePc w).setRun .running

end Sys2Proof.Machine
end

