-- ==== Sys2Proof/Machine/Step.lean ====
section
/-! DEFINITION. One step of the machine (40_execution_loop.md R100-R104). -/

namespace Sys2Proof.Machine

/-- One step: the host's turn and then the CORE's step, which is atomic (R100). HALTED and FAULTED have no
step (R103, R104; log 7). -/
def step (s : State) : Host.Outcome State Fault Refusal :=
  match s.run with
  | .running => s.hostTurn.stepRunning
  | .waiting k => s.stepWaiting k
  | .halted => .fault .halted
  | .faulted r => .fault (.faulted r)

/-- The state whose next step fetches and runs the word whose low `nbits` bits are `w`'s. It stands for the
load of a program from outside the machine (R211; log 14). -/
def State.withFetchWord (s : State) (nbits w : Nat) : State :=
  s.placeWord (BitVec.ofNat 16 (w % 2 ^ nbits))

end Sys2Proof.Machine
end

