-- ==== Sys2Proof/Safety.lean ====
section
/-! DEFINITION. What claims are stated in: the invariant, host schedules and how a run ends
(40_execution_loop.md R108), the frames of an instruction, the tables of which instruction writes what
(10_state.md R31, R36), and the loops of PUTS and PUTSP as the spec writes them (44_trap.md R155, R158). -/

namespace Sys2Proof.Machine

/-! ## The invariant and the end of a run -/

/-- The memory of the state is in canonical form: addresses below 65,536 and strictly rising, no entry equal
to what an unlisted address reads as. -/
def MemoryCanonical (s : State) : Prop := s.mem.wf = true

/-! ### Under an unending schedule: every interleaving of host moves and CORE steps (R188, D8) -/

/-- A host schedule without an end: the moves of the turn before step `n`, for every `n`. It is no part of State;
a host that reacts to the output makes some such sequence too. -/
abbrev Schedule := Nat → List HostMove

/-- One step in which the host's turn is `ms`. -/
def stepUnder (ms : List HostMove) (s : State) : Host.Outcome State Fault Refusal := step (s.setHost [ms])

/-- `n` steps from `s` lead to `t`, the host taking the turns of `σ`. -/
def ReachesUnder (σ : Schedule) : Nat → State → State → Prop
  | 0, s, t => t = s
  | n + 1, s, t => ∃ u, ReachesUnder σ n s u ∧ stepUnder (σ n) u = .next t

/-- "A run ends normally when the run state becomes HALTED" (R108). -/
def EndsNormallyUnder (σ : Schedule) (s : State) : Prop := ∃ n t, ReachesUnder σ n s t ∧ t.run = .halted

/-- "A run ends in error when the run state becomes FAULTED" (R108). -/
def EndsInErrorUnder (σ : Schedule) (s : State) : Prop := ∃ n t r, ReachesUnder σ n s t ∧ t.run = .faulted r

/-- "A run in WAITING whose host never supplies input or closes it is blocked" (R108): it comes to a WAITING state
with no byte queued and input open, and the host makes no move from there on. -/
def BlockedUnder (σ : Schedule) (s : State) : Prop :=
  ∃ n t k, ReachesUnder σ n s t ∧ t.run = .waiting k ∧ t.console.inQueue = [] ∧ t.console.inClosed = false ∧
    ∀ m, n ≤ m → σ m = []

/-- The run executes instructions without end (R108: it "runs forever"): again and again it is RUNNING. Waits that
the host ends may lie between, so unending input may be read on the way. -/
def RunsForeverUnder (σ : Schedule) (s : State) : Prop :=
  ∀ n, ∃ m t, n ≤ m ∧ ReachesUnder σ m s t ∧ t.run = .running

/-- The unending schedule that makes the turns of a list and then no move. -/
def Schedule.ofTurns (h : List (List HostMove)) : Schedule := fun n => h.getD n []

/-! ### Under the finite schedule that the state carries -/

/-- `n` steps from `s` lead to `t`, under the schedule that `s` carries. -/
def Reaches (n : Nat) (s t : State) : Prop := Sys2Proof.core.run n s = .next t

/-- The run from `s` becomes HALTED (R108). -/
def EndsNormally (s : State) : Prop := ∃ n t, Reaches n s t ∧ t.run = .halted

/-- The run from `s` becomes FAULTED (R108). -/
def EndsInError (s : State) : Prop := ∃ n t r, Reaches n s t ∧ t.run = .faulted r

/-- The run from `s` comes to a hold that no host move of its schedule lifts (R108: blocked). -/
def ComesToHold (s : State) : Prop := ∃ n t k, Reaches n s t ∧ step t = .fault (.held k)

/-- The run from `s` runs forever on the finitely many moves of its schedule (R108): every number of steps can be
taken. A run that needs unending input is one under a `Schedule`. -/
def RunsForever (s : State) : Prop := ∀ n, ∃ t, Reaches n s t

/-! ## Frames -/

/-- COND agrees with the value: Z for 0, N for bit 15 set, else P (R35). -/
def FlagsShow (t : State) (v : Word) : Prop :=
  t.cond = if v = 0#16 then .z else if v.getLsbD 15 = true then .n else .p

/-- Every general register outside the list is as before. -/
def RegsSameBut (rs : List RegIdx) (s t : State) : Prop := ∀ r, r ∉ rs → t.reg r = s.reg r

/-- Every cell of memory is as before. -/
def CellsSame (s t : State) : Prop := ∀ a : Word, t.cell a = s.cell a

/-- Every cell of memory outside the list is as before. -/
def CellsSameBut (addrs : List Word) (s t : State) : Prop := ∀ a : Word, a ∉ addrs → t.cell a = s.cell a

/-- The run state and the host schedule are as before. -/
def RunSame (s t : State) : Prop := t.run = s.run ∧ t.host = s.host

/-! ## Which instruction writes what -/

/-- The flag-setting instructions: exactly ADD, AND, NOT, LD, LDI, LDR and LEA (R36). -/
def flagSetting : Instr → Bool
  | .addReg _ _ _ | .addImm _ _ _ | .andReg _ _ _ | .andImm _ _ _ | .not _ _ => true
  | .ld _ _ | .ldi _ _ | .ldr _ _ _ | .lea _ _ => true
  | .br _ _ | .st _ _ | .jsr _ | .jsrr _ | .str _ _ _ | .rti _ | .sti _ _ | .jmp _ | .res _ => false
  | .trap _ | .ret | .trapGetc | .trapOut | .trapPuts | .trapIn | .trapPutsp | .trapHalt => false

/-- The general registers an instruction writes in its own step (R31). R0 of GETC and IN is written by the
completion step. -/
def regsWritten : Instr → List RegIdx
  | .addReg dr _ _ | .addImm dr _ _ | .andReg dr _ _ | .andImm dr _ _ | .not dr _ => [dr]
  | .ld dr _ | .ldi dr _ | .ldr dr _ _ | .lea dr _ => [dr]
  | .st _ _ | .sti _ _ | .str _ _ _ | .br _ _ | .jmp _ | .ret | .rti _ | .res _ => []
  | .jsr _ | .jsrr _ => [7#3]
  | .trap _ | .trapGetc | .trapOut | .trapPuts | .trapIn | .trapPutsp | .trapHalt => [7#3]

/-- The instructions that write the PC beyond the fetch increment (R31). -/
def writesPc : Instr → Bool
  | .br _ _ | .jmp _ | .ret | .jsr _ | .jsrr _ => true
  | .addReg _ _ _ | .addImm _ _ _ | .andReg _ _ _ | .andImm _ _ _ | .not _ _ => false
  | .ld _ _ | .ldi _ _ | .ldr _ _ _ | .lea _ _ | .st _ _ | .sti _ _ | .str _ _ _ => false
  | .rti _ | .res _ => false
  | .trap _ | .trapGetc | .trapOut | .trapPuts | .trapIn | .trapPutsp | .trapHalt => false

/-- The instructions that write memory: ST, STI and STR (R62). -/
def storing : Instr → Bool
  | .st _ _ | .sti _ _ | .str _ _ _ => true
  | .br _ _ | .addReg _ _ _ | .addImm _ _ _ | .ld _ _ | .jsr _ | .jsrr _ | .andReg _ _ _ | .andImm _ _ _ => false
  | .ldr _ _ _ | .rti _ | .not _ _ | .ldi _ _ | .jmp _ | .res _ | .lea _ _ => false
  | .trap _ | .ret | .trapGetc | .trapOut | .trapPuts | .trapIn | .trapPutsp | .trapHalt => false

/-- The instructions whose effect is a fault: RTI, RES and TRAP with a vector outside the table (R180). -/
def faulting : Instr → Bool
  | .rti _ | .res _ => true
  | .trap v => (serviceOf v).isNone
  | .br _ _ | .addReg _ _ _ | .addImm _ _ _ | .ld _ _ | .st _ _ | .jsr _ | .jsrr _ => false
  | .andReg _ _ _ | .andImm _ _ _ | .ldr _ _ _ | .str _ _ _ | .not _ _ | .ldi _ _ | .sti _ _ => false
  | .jmp _ | .lea _ _ | .ret => false
  | .trapGetc | .trapOut | .trapPuts | .trapIn | .trapPutsp | .trapHalt => false

/-! ## The two string loops as the spec writes them -/

/-- `PutsRun a s t`: the loop of PUTS, entered with pointer `a` in state `s`, ends in state `t` (R155). -/
inductive PutsRun : Word → State → State → Prop
  /-- a zero word ends the string -/
  | stop {a : Word} {s : State} (h : (s.memRead a).1 = 0#16) : PutsRun a s (s.memRead a).2
  /-- bits 7:0 of any other word are emitted, and the pointer advances modulo 2^16 -/
  | more {a : Word} {s t : State} (h : (s.memRead a).1 ≠ 0#16)
      (rest : PutsRun (a + 1#16) ((s.memRead a).2.consoleEmit ((s.memRead a).1.extractLsb' 0 8)) t) : PutsRun a s t

/-- `PutspRun a s t`: the loop of PUTSP, entered with pointer `a` in state `s`, ends in state `t` (R158). The low
byte is bits 7:0 of the word and the high byte bits 15:8. -/
inductive PutspRun : Word → State → State → Prop
  /-- a zero low byte ends the string, whatever the high byte is -/
  | stopLow {a : Word} {s : State} (h : (s.memRead a).1.extractLsb' 0 8 = 0#8) : PutspRun a s (s.memRead a).2
  /-- a zero high byte ends the string after the low byte is emitted -/
  | stopHigh {a : Word} {s : State} (hl : (s.memRead a).1.extractLsb' 0 8 ≠ 0#8)
      (hh : (s.memRead a).1.extractLsb' 8 8 = 0#8) :
      PutspRun a s ((s.memRead a).2.consoleEmit ((s.memRead a).1.extractLsb' 0 8))
  /-- otherwise both bytes are emitted, low byte first -/
  | more {a : Word} {s t : State} (hl : (s.memRead a).1.extractLsb' 0 8 ≠ 0#8)
      (hh : (s.memRead a).1.extractLsb' 8 8 ≠ 0#8)
      (rest : PutspRun (a + 1#16)
        (((s.memRead a).2.consoleEmit ((s.memRead a).1.extractLsb' 0 8)).consoleEmit
          ((s.memRead a).1.extractLsb' 8 8)) t) :
      PutspRun a s t

/-! ## Host moves and words that images place -/

/-- The byte an input move brings. -/
def HostMove.byte : HostMove → Option Byte
  | .input b => some b
  | .close => none

/-- The word an image places at an address, if it covers it (R211). -/
def Image.wordAt (im : Image) (a : Word) : Option Word :=
  if im.origin.toNat ≤ a.toNat then im.words[a.toNat - im.origin.toNat]? else none

/-- The word the last image that covers an address places there, or the reset contents (R46, R211). -/
def placedWord (ims : List Image) (a : Word) : Word :=
  (ims.reverse.findSome? (fun im => im.wordAt a)).getD 0#16

end Sys2Proof.Machine
end

