-- ==== Sys2Proof/WellFormed.lean ====
section
/-! DEFINITION. Which instruction terms an instruction word can stand for: every offset fits its signed
field (30_encoding.md R75-R78), a reserved word carries its own opcode (R84), and the words of RET and of the
six services are written with their own constructors (log 10). -/

namespace Sys2Proof

/-- The value is the sign extension of its own low `n` bits, so it fits a signed `n`-bit field (R75-R78). -/
def fitsSigned (n : Nat) (v : Word) : Bool := v == sext (bitField v 0 n)

/-- The word's opcode field is this opcode's value (R84). -/
def hasOpcode (op : Opcode) (w : Word) : Bool := bitField w 12 4 == opcodeBits op

/-- Well-formedness of an instruction term. -/
def wellFormed : Instr → Bool
  | .br _ off9 => fitsSigned 9 off9
  | .addReg _ _ _ => true
  | .addImm _ _ imm5 => fitsSigned 5 imm5
  | .ld _ off9 => fitsSigned 9 off9
  | .st _ off9 => fitsSigned 9 off9
  | .jsr off11 => fitsSigned 11 off11
  | .jsrr _ => true
  | .andReg _ _ _ => true
  | .andImm _ _ imm5 => fitsSigned 5 imm5
  | .ldr _ _ off6 => fitsSigned 6 off6
  | .str _ _ off6 => fitsSigned 6 off6
  | .rti word => hasOpcode .rti word
  | .not _ _ => true
  | .ldi _ off9 => fitsSigned 9 off9
  | .sti _ off9 => fitsSigned 9 off9
  | .jmp baseR => baseR != linkReg
  | .res word => hasOpcode .res word
  | .lea _ off9 => fitsSigned 9 off9
  | .trap v => (serviceOf v).isNone
  | .ret => true
  | .trapGetc => true
  | .trapOut => true
  | .trapPuts => true
  | .trapIn => true
  | .trapPutsp => true
  | .trapHalt => true

end Sys2Proof
end

