-- ==== Sys2Proof/Certificates/Slice0/Obligations.lean ====
section
/-! DEFINITION. The statements for the provers. "R<n>" is a rule of spec/, "D<n>" one of the spec's own
decisions (92_eei_decisions.md), "log <n>" an entry of notes/assumptions. A statement whose rule carries the
spec's mark [decision] or [derived] is called the spec's own inference here. The opcode bits in an encoding clause
are those of the cited instruction rule's own "Encoding" line; the whole opcode table is the spec's decision D1. -/

open Sys2Proof Sys2Proof.Machine

/-! ## Encoding -/

/-- Words written out from the formats of R73 decode to the instructions they stand for. The opcode numbers
are the spec's decision D1; that 0xF025 decodes to a constructor of its own, where R82 gives TRAP(0x25), is the
model's choice (log 10). -/
def Obligations.WordsWrittenFromTheFormatsDecode : Prop :=
  decode 0b0000101000000101#16 = .br 0b101#3 0x0005#16 ∧
  decode 0b0001000001000010#16 = .addReg 0#3 1#3 2#3 ∧
  decode 0b0001000001111101#16 = .addImm 0#3 1#3 0xFFFD#16 ∧
  decode 0b0010010000000010#16 = .ld 2#3 0x0002#16 ∧
  decode 0b0011000111111110#16 = .st 0#3 0xFFFE#16 ∧
  decode 0b0100110000000000#16 = .jsr 0xFC00#16 ∧
  decode 0b0100000011000000#16 = .jsrr 3#3 ∧
  decode 0b0110001010111111#16 = .ldr 1#3 2#3 0xFFFF#16 ∧
  decode 0b0111100101000110#16 = .str 4#3 5#3 0x0006#16 ∧
  decode 0b1001001010111111#16 = .not 1#3 2#3 ∧
  decode 0b1100000010000000#16 = .jmp 2#3 ∧
  decode 0b1101000100100011#16 = .res 0xD123#16 ∧
  decode 0b1111000000100101#16 = .trapHalt ∧
  decode 0b1111000000100110#16 = .trap 0x26#8

/-- Decoding the word of a well-formed instruction gives the instruction back, every operand at every value
(R73, R82; the six services and RET by their own constructors, log 10). -/
def Obligations.DecodeOfEncodeGivesTheInstruction : Prop :=
  ∀ i : Instr, wellFormed i = true → decode (encode i) = i

/-- The decoder is total and its answers are well-formed: offsets are sign extensions of their fields, a
reserved word carries its own opcode (R81, R82), and, by the model's choice (log 10; R82 gives JMP(7) and
TRAP(0x20..0x25) there), a JMP word of R7 and a TRAP word of a service are not answered with `jmp` and `trap`. -/
def Obligations.EveryWordDecodesWellFormed : Prop :=
  ∀ w : Word, wellFormed (decode w) = true

/-- Bits a format does not use are ignored (R83; the spec's decision D5): ADD and AND bits 4:3, NOT bits 5:0,
JMP bits 11:9 and 5:0, JSRR bits 10:9 and 5:0, TRAP bits 11:8. Words of RTI and of RES, which differ in
bits 11:0 only, run the same but for the `instr` their record keeps. -/
def Obligations.IgnoredBitsDoNotChangeTheInstruction : Prop :=
  ∀ w w' : Word, w.extractLsb' 12 4 = w'.extractLsb' 12 4 →
    ((w.extractLsb' 12 4 = 0x1#4 ∨ w.extractLsb' 12 4 = 0x5#4) → w.extractLsb' 5 7 = w'.extractLsb' 5 7 →
      w.getLsbD 5 = false → w.extractLsb' 0 3 = w'.extractLsb' 0 3 → decode w = decode w') ∧
    (w.extractLsb' 12 4 = 0x9#4 → w.extractLsb' 6 6 = w'.extractLsb' 6 6 → decode w = decode w') ∧
    (w.extractLsb' 12 4 = 0xC#4 → w.extractLsb' 6 3 = w'.extractLsb' 6 3 → decode w = decode w') ∧
    (w.extractLsb' 12 4 = 0x4#4 → w.getLsbD 11 = false → w'.getLsbD 11 = false →
      w.extractLsb' 6 3 = w'.extractLsb' 6 3 → decode w = decode w') ∧
    (w.extractLsb' 12 4 = 0xF#4 → w.extractLsb' 0 8 = w'.extractLsb' 0 8 → decode w = decode w') ∧
    (w.extractLsb' 12 4 = 0x8#4 ∨ w.extractLsb' 12 4 = 0xD#4 → ∀ s : State, ∃ (t : State) (r : FaultRecord),
      exec (decode w) s = .next (t.setRun (.faulted { r with instr := w })) ∧
      exec (decode w') s = .next (t.setRun (.faulted { r with instr := w' })))

/-- sext_w and zext_16 (R13). -/
def Obligations.SignAndZeroExtensionFollowTheRule : Prop :=
  (∀ n : Nat, n = 5 ∨ n = 6 ∨ n = 9 ∨ n = 11 → ∀ v : BitVec n,
    sext v = if v.getLsbD (n - 1) = true then (v.setWidth 16 ||| (0xFFFF#16 <<< n)) &&& 0xFFFF#16
      else v.setWidth 16) ∧
  (∀ n : Nat, n ≤ 16 → ∀ (v : BitVec n) (i : Nat), (zext v).getLsbD i = (decide (i < n) && v.getLsbD i))

/-! ## Reset, load and launch -/

/-- The reset values (R46): for every launch whose images fit, and for `State.reset`, which is the launch
with the default START_PC, no image and no input (logs 3, 4, 5). -/
def Obligations.ResetLeavesTheSpecValues : Prop :=
  (∀ l : Launch, (∀ im ∈ l.images, im.origin.toNat + im.words.length ≤ 0x10000) →
    ∃ t, launch l = .next t ∧ (∀ r, t.reg r = 0x0000#16) ∧ t.pc = l.startPc ∧ t.cond = .z ∧ t.run = .running ∧
      t.console.out = [] ∧ t.console.inQueue = l.inQueue ∧ t.console.inClosed = l.inClosed ∧
      (∀ a : Word, (∀ im ∈ l.images, im.wordAt a = none) → t.cell a = 0x0000#16)) ∧
  launch { startPc := 0x3000#16, images := [], inQueue := [], inClosed := false, host := [] } = .next State.reset

/-- The images of a launch fill the cells they cover, in the order given, the last one winning; the copy
emits nothing and polls nothing (R211; the spec's decision D16). -/
def Obligations.LoadedImagesFillTheirCells : Prop :=
  ∀ l : Launch, (∀ im ∈ l.images, im.origin.toNat + im.words.length ≤ 0x10000) →
    ∃ t, launch l = .next t ∧ (∀ a : Word, t.cell a = placedWord l.images a) ∧
      t.console = { inQueue := l.inQueue, inClosed := l.inClosed, out := [] }

/-- A launch with an image that runs past 0xFFFF is refused (R211, R213; the spec's decision D16; log 16). -/
def Obligations.ImagePastTheEndRefusesTheLaunch : Prop :=
  ∀ l : Launch, (∃ im ∈ l.images, 0x10000 < im.origin.toNat + im.words.length) →
    ∃ o, launch l = .refused (.loadFailure o)

/-! ## The step -/

/-- In RUNNING a step is: the host's turn (log 5), MemRead at pc, pc + 1 modulo 2^16, decode, execute (R101,
R32, R33). With pc other than 0xFE00 the word is that of the cell at pc, whatever the host does; with no turn to
come the host's turn is nothing. -/
def Obligations.StepRunsTheDecodedInstruction : Prop :=
  ∀ s : State, s.run = .running →
    step s = exec (decode (s.hostTurn.memRead s.hostTurn.pc).1)
      ((s.hostTurn.memRead s.hostTurn.pc).2.setPc (s.hostTurn.pc + 1#16)) ∧
    s.hostTurn.pc = s.pc ∧
    (s.host = [] → s.hostTurn = s) ∧
    (s.pc ≠ 0xFE00#16 → step s = exec (decode (s.cell s.pc)) (s.hostTurn.setPc (s.pc + 1#16)))

/-- `withFetchWord` places a word so that the very next step runs it, in every state (log 14). -/
def Obligations.PlacedWordIsTheNextInstruction : Prop :=
  ∀ (s : State) (w : Word), ∃ u : State, u.pc = (s.withFetchWord 16 w.toNat).pc + 1#16 ∧
    step (s.withFetchWord 16 w.toNat) = exec (decode w) u ∧
    (s.pc ≠ 0xFE00#16 → u.pc = s.pc + 1#16) ∧ u.regs = s.regs ∧ u.cond = s.cond ∧ u.run = .running ∧
    CellsSameBut [(s.withFetchWord 16 w.toNat).pc] s u

/-- The host's turn is its moves on the Console and nothing else (R188; the spec's decision D8): while input
is open each input byte is appended, a close ends input for good, and `out`, the registers, memory and the
run state are untouched. Inputs after a close are no moves (log 6). -/
def Obligations.HostTurnMakesOnlyHostMoves : Prop :=
  ∀ s : State, s.hostTurn.regs = s.regs ∧ s.hostTurn.pc = s.pc ∧ s.hostTurn.cond = s.cond ∧
    s.hostTurn.mem = s.mem ∧ s.hostTurn.run = s.run ∧ s.hostTurn.console.out = s.console.out ∧
    (∀ ms rest, s.host = ms :: rest → s.hostTurn.host = rest ∧
      s.hostTurn.console.inClosed = (s.console.inClosed || ms.contains .close) ∧
      s.hostTurn.console.inQueue = s.console.inQueue ++
        (if s.console.inClosed = true then [] else
          (ms.takeWhile (· != .close)).filterMap HostMove.byte))

/-- Fetching at 0xFE00 polls: with a byte queued after the host's turn (log 5) the step executes 0x8000, which
faults; with none it executes 0x0000, a no-op (R68; the spec's decision D26). -/
def Obligations.FetchAtKbsrPolls : Prop :=
  ∀ s : State, s.run = .running → s.pc = 0xFE00#16 →
    (∀ b rest, s.hostTurn.console.inQueue = b :: rest → ∃ t, step s = .next t ∧
      t.run = .faulted { cause := .reservedOpcode, addr := 0xFE00#16, instr := 0x8000#16, detail := .opcode 0x8#4 } ∧
      t.pc = 0xFE01#16 ∧ t.cell 0xFE00#16 = 0x8000#16 ∧ t.cell 0xFE02#16 = b.setWidth 16 ∧
      t.console = { s.hostTurn.console with inQueue := rest } ∧ t.regs = s.regs ∧ t.cond = s.cond ∧
      CellsSameBut [0xFE00#16, 0xFE02#16] s t ∧ t.host = s.host.tail) ∧
    (s.hostTurn.console.inQueue = [] → ∃ t, step s = .next t ∧ t.run = .running ∧ t.pc = 0xFE01#16 ∧
      t.cell 0xFE00#16 = 0x0000#16 ∧ t.console = s.hostTurn.console ∧ t.regs = s.regs ∧ t.cond = s.cond ∧
      CellsSameBut [0xFE00#16] s t ∧ t.host = s.host.tail)

/-- HALTED and FAULTED have no step (R103, R104). That `step` says so by a named fault is the model's choice
(log 7). -/
def Obligations.NoStepInHaltedOrFaulted : Prop :=
  ∀ s : State, (s.run = .halted → step s = .fault .halted) ∧
    (∀ r, s.run = .faulted r → step s = .fault (.faulted r))

/-- A WAITING CORE with no byte queued and input open is held: a scheduled host turn that does not lift the
hold changes the Console only, and with no turn to come there is no step (R102; the spec's decision D9;
logs 7, 8). -/
def Obligations.WaitingIsHeldWithoutInput : Prop :=
  ∀ (s : State) (k : WaitKind), s.run = .waiting k → s.hostTurn.console.inQueue = [] →
    s.hostTurn.console.inClosed = false →
    (s.host = [] → step s = .fault (.held k)) ∧ (s.host ≠ [] → step s = .next s.hostTurn)

/-- The completion of GETC (R102, R153; the spec's decisions D8, D9, D10, D27, D28), with its frame, under every
schedule: the byte, or the end of input, may have come with the very host turn before the step (R188; log 5). -/
def Obligations.GetcCompletesWithTheOldestByte : Prop :=
  ∀ s : State, s.run = .waiting .getc →
    (∀ b rest, s.hostTurn.console.inQueue = b :: rest → ∃ t, step s = .next t ∧ t.reg 0#3 = b.setWidth 16 ∧
      t.run = .running ∧ t.console = { s.hostTurn.console with inQueue := rest } ∧
      RegsSameBut [0#3] s t ∧ t.cond = s.cond ∧ t.pc = s.pc ∧ CellsSame s t ∧ t.host = s.host.tail) ∧
    (s.hostTurn.console.inQueue = [] → s.hostTurn.console.inClosed = true →
      ∃ t, step s = .next t ∧ t.reg 0#3 = 0x0000#16 ∧
      t.run = .running ∧ t.console = s.hostTurn.console ∧
      RegsSameBut [0#3] s t ∧ t.cond = s.cond ∧ t.pc = s.pc ∧ CellsSame s t ∧ t.host = s.host.tail)

/-- The completion of IN (R102, R157; the spec's decisions D9, D10, D11, D27, D28), with its frame, under every
schedule (R188; log 5): the byte is echoed, end of input is not. -/
def Obligations.InCompletesAndEchoes : Prop :=
  ∀ s : State, s.run = .waiting .inChar →
    (∀ b rest, s.hostTurn.console.inQueue = b :: rest → ∃ t, step s = .next t ∧ t.reg 0#3 = b.setWidth 16 ∧
      t.run = .running ∧
      t.console = { s.hostTurn.console with inQueue := rest, out := s.console.out ++ [b] } ∧
      RegsSameBut [0#3] s t ∧ t.cond = s.cond ∧ t.pc = s.pc ∧ CellsSame s t ∧ t.host = s.host.tail) ∧
    (s.hostTurn.console.inQueue = [] → s.hostTurn.console.inClosed = true →
      ∃ t, step s = .next t ∧ t.reg 0#3 = 0x0000#16 ∧
      t.run = .running ∧ t.console = s.hostTurn.console ∧
      RegsSameBut [0#3] s t ∧ t.cond = s.cond ∧ t.pc = s.pc ∧ CellsSame s t ∧ t.host = s.host.tail)

/-! ## MemRead and MemWrite -/

/-- MemRead: a read of KBSR polls first and returns the updated cell; every other read returns its cell and
has no side effect (R55). -/
def Obligations.MemReadPollsOnlyAtKbsr : Prop :=
  (∀ s : State, s.memRead 0xFE00#16 = (s.kbsrPoll.cell 0xFE00#16, s.kbsrPoll)) ∧
  (∀ (s : State) (a : Word), a ≠ 0xFE00#16 → s.memRead a = (s.cell a, s))

/-- KbsrPoll (R56; the spec's decision D7): a queued byte is consumed into KBDR and KBSR becomes 0x8000;
otherwise KBSR becomes 0x0000 and KBDR is unchanged. Nothing else changes. -/
def Obligations.KbsrPollUpdatesTheKeyboardRegisters : Prop :=
  ∀ s : State, RegsSameBut [] s s.kbsrPoll ∧ s.kbsrPoll.pc = s.pc ∧ s.kbsrPoll.cond = s.cond ∧
    RunSame s s.kbsrPoll ∧ CellsSameBut [0xFE00#16, 0xFE02#16] s s.kbsrPoll ∧
    (∀ b rest, s.console.inQueue = b :: rest →
      s.kbsrPoll.cell 0xFE00#16 = 0x8000#16 ∧ s.kbsrPoll.cell 0xFE02#16 = b.setWidth 16 ∧
      s.kbsrPoll.console = { s.console with inQueue := rest }) ∧
    (s.console.inQueue = [] →
      s.kbsrPoll.cell 0xFE00#16 = 0x0000#16 ∧ s.kbsrPoll.cell 0xFE02#16 = s.cell 0xFE02#16 ∧
      s.kbsrPoll.console = s.console)

/-- MemWrite stores the word in its cell and in no other, and emits its low byte exactly when the address is
DDR (R57). -/
def Obligations.MemWriteStoresAndEmitsAtDdr : Prop :=
  ∀ (s : State) (a v : Word), (s.memWrite a v).cell a = v ∧ CellsSameBut [a] s (s.memWrite a v) ∧
    (a = 0xFE06#16 →
      (s.memWrite a v).console = { s.console with out := s.console.out ++ [v.extractLsb' 0 8] }) ∧
    (a ≠ 0xFE06#16 → (s.memWrite a v).console = s.console) ∧
    RegsSameBut [] s (s.memWrite a v) ∧ (s.memWrite a v).pc = s.pc ∧ (s.memWrite a v).cond = s.cond ∧
    RunSame s (s.memWrite a v)

/-- In the canonical form two memories with the same cells are the same data (log 1). -/
def Obligations.CanonicalMemoriesWithEqualCellsAreEqual : Prop :=
  ∀ m m' : Memory, m.wf = true → m'.wf = true → (∀ a : Word, m.get a.toNat = m'.get a.toNat) → m = m'

/-! ## Operate instructions -/

/-- ADD in both modes (R110, R111): encoding, wraparound sum, flags, frame. -/
def Obligations.AddWritesTheWrappedSum : Prop :=
  (∀ w : Word, w.extractLsb' 12 4 = 0x1#4 → w.getLsbD 5 = false →
    decode w = .addReg (w.extractLsb' 9 3) (w.extractLsb' 6 3) (w.extractLsb' 0 3)) ∧
  (∀ w : Word, w.extractLsb' 12 4 = 0x1#4 → w.getLsbD 5 = true →
    decode w = .addImm (w.extractLsb' 9 3) (w.extractLsb' 6 3) ((w.extractLsb' 0 5).signExtend 16)) ∧
  (∀ (dr sr1 sr2 : RegIdx) (s : State), ∃ t, exec (.addReg dr sr1 sr2) s = .next t ∧
    (t.reg dr).toNat = ((s.reg sr1).toNat + (s.reg sr2).toNat) % 2 ^ 16 ∧ FlagsShow t (t.reg dr) ∧
    RegsSameBut [dr] s t ∧ t.pc = s.pc ∧ CellsSame s t ∧ t.console = s.console ∧ RunSame s t) ∧
  (∀ (dr sr1 : RegIdx) (imm5 : Word) (s : State), ∃ t, exec (.addImm dr sr1 imm5) s = .next t ∧
    (t.reg dr).toNat = ((s.reg sr1).toNat + imm5.toNat) % 2 ^ 16 ∧ FlagsShow t (t.reg dr) ∧
    RegsSameBut [dr] s t ∧ t.pc = s.pc ∧ CellsSame s t ∧ t.console = s.console ∧ RunSame s t)

/-- AND in both modes (R112, R113): encoding, bitwise conjunction, flags, frame. -/
def Obligations.AndWritesTheConjunction : Prop :=
  (∀ w : Word, w.extractLsb' 12 4 = 0x5#4 → w.getLsbD 5 = false →
    decode w = .andReg (w.extractLsb' 9 3) (w.extractLsb' 6 3) (w.extractLsb' 0 3)) ∧
  (∀ w : Word, w.extractLsb' 12 4 = 0x5#4 → w.getLsbD 5 = true →
    decode w = .andImm (w.extractLsb' 9 3) (w.extractLsb' 6 3) ((w.extractLsb' 0 5).signExtend 16)) ∧
  (∀ (dr sr1 sr2 : RegIdx) (s : State), ∃ t, exec (.andReg dr sr1 sr2) s = .next t ∧
    (∀ i : Nat, (t.reg dr).getLsbD i = ((s.reg sr1).getLsbD i && (s.reg sr2).getLsbD i)) ∧
    FlagsShow t (t.reg dr) ∧
    RegsSameBut [dr] s t ∧ t.pc = s.pc ∧ CellsSame s t ∧ t.console = s.console ∧ RunSame s t) ∧
  (∀ (dr sr1 : RegIdx) (imm5 : Word) (s : State), ∃ t, exec (.andImm dr sr1 imm5) s = .next t ∧
    (∀ i : Nat, (t.reg dr).getLsbD i = ((s.reg sr1).getLsbD i && imm5.getLsbD i)) ∧
    FlagsShow t (t.reg dr) ∧
    RegsSameBut [dr] s t ∧ t.pc = s.pc ∧ CellsSame s t ∧ t.console = s.console ∧ RunSame s t)

/-- NOT (R114): encoding with bits 5:0 ignored, bitwise complement, flags, frame. -/
def Obligations.NotWritesTheComplement : Prop :=
  (∀ w : Word, w.extractLsb' 12 4 = 0x9#4 → decode w = .not (w.extractLsb' 9 3) (w.extractLsb' 6 3)) ∧
  (∀ (dr sr : RegIdx) (s : State), ∃ t, exec (.not dr sr) s = .next t ∧
    (∀ i : Nat, i < 16 → (t.reg dr).getLsbD i = !(s.reg sr).getLsbD i) ∧ FlagsShow t (t.reg dr) ∧
    RegsSameBut [dr] s t ∧ t.pc = s.pc ∧ CellsSame s t ∧ t.console = s.console ∧ RunSame s t)

/-! ## Control transfer -/

/-- BR (R120; the bit order of the mask and COND's bits are the spec's decision D2): bit 11 tests N, bit 10
tests Z, bit 9 tests P, and a taken branch adds the offset to the incremented pc. -/
def Obligations.BrBranchesWhenTheMaskMeetsCond : Prop :=
  (∀ w : Word, w.extractLsb' 12 4 = 0x0#4 →
    decode w = .br (w.extractLsb' 9 3) ((w.extractLsb' 0 9).signExtend 16)) ∧
  (∀ (nzp : BitVec 3) (off9 : Word) (s : State), ∃ t, exec (.br nzp off9) s = .next t ∧
    t.pc = (if (nzp.getLsbD 2 = true ∧ s.cond = .n) ∨ (nzp.getLsbD 1 = true ∧ s.cond = .z) ∨
        (nzp.getLsbD 0 = true ∧ s.cond = .p) then s.pc + off9 else s.pc) ∧
    t.regs = s.regs ∧ t.cond = s.cond ∧ CellsSame s t ∧ t.console = s.console ∧ RunSame s t)

/-- JMP and RET (R121): encoding with ignored bits, pc <- x[BaseR], nothing else. RET is JMP R7 in every state
(its own constructor is the model's choice, log 10). -/
def Obligations.JmpAndRetLoadThePc : Prop :=
  (∀ (w : Word) (s : State), w.extractLsb' 12 4 = 0xC#4 →
    exec (decode w) s = exec (.jmp (w.extractLsb' 6 3)) s) ∧
  (∀ (baseR : RegIdx) (s : State), ∃ t, exec (.jmp baseR) s = .next t ∧ t.pc = s.reg baseR ∧
    t.regs = s.regs ∧ t.cond = s.cond ∧ CellsSame s t ∧ t.console = s.console ∧ RunSame s t) ∧
  decode 0xC1C0#16 = .ret ∧
  (∀ s : State, ∃ t, exec .ret s = .next t ∧ t.pc = s.reg 7#3 ∧
    t.regs = s.regs ∧ t.cond = s.cond ∧ CellsSame s t ∧ t.console = s.console ∧ RunSame s t)

/-- JSR (R122): encoding, R7 <- the incremented pc, pc <- pc + PCoffset11 modulo 2^16, nothing else. -/
def Obligations.JsrSavesThePcAndJumps : Prop :=
  (∀ w : Word, w.extractLsb' 12 4 = 0x4#4 → w.getLsbD 11 = true →
    decode w = .jsr ((w.extractLsb' 0 11).signExtend 16)) ∧
  (∀ (off11 : Word) (s : State), ∃ t, exec (.jsr off11) s = .next t ∧ t.reg 7#3 = s.pc ∧
    t.pc = s.pc + off11 ∧
    RegsSameBut [7#3] s t ∧ t.cond = s.cond ∧ CellsSame s t ∧ t.console = s.console ∧ RunSame s t)

/-- JSRR (R123; the spec's decision D6): R7 is written before BaseR is read, so JSRR R7 goes on at the next
instruction. -/
def Obligations.JsrrSavesThePcBeforeReadingBaseR : Prop :=
  (∀ w : Word, w.extractLsb' 12 4 = 0x4#4 → w.getLsbD 11 = false → decode w = .jsrr (w.extractLsb' 6 3)) ∧
  (∀ (baseR : RegIdx) (s : State), ∃ t, exec (.jsrr baseR) s = .next t ∧ t.reg 7#3 = s.pc ∧
    t.pc = (if baseR = 7#3 then s.pc else s.reg baseR) ∧
    RegsSameBut [7#3] s t ∧ t.cond = s.cond ∧ CellsSame s t ∧ t.console = s.console ∧ RunSame s t)

/-! ## Loads, stores and LEA -/

/-- LD (R130): the word MemRead gives at pc + PCoffset9 goes to DR and sets the flags. Away from KBSR memory
and the Console are as before; at KBSR they are as the poll leaves them. -/
def Obligations.LdLoadsPcRelative : Prop :=
  (∀ w : Word, w.extractLsb' 12 4 = 0x2#4 →
    decode w = .ld (w.extractLsb' 9 3) ((w.extractLsb' 0 9).signExtend 16)) ∧
  (∀ (dr : RegIdx) (off9 : Word) (s : State), ∃ t, exec (.ld dr off9) s = .next t ∧
    t.reg dr = (s.memRead (s.pc + off9)).1 ∧ FlagsShow t (t.reg dr) ∧
    RegsSameBut [dr] s t ∧ t.pc = s.pc ∧ RunSame s t ∧
    (s.pc + off9 = 0xFE00#16 → CellsSame s.kbsrPoll t ∧ t.console = s.kbsrPoll.console) ∧
    (s.pc + off9 ≠ 0xFE00#16 → CellsSame s t ∧ t.console = s.console))

/-- LDI (R131): both reads are MemReads, the pointer first; the flags show the final value. -/
def Obligations.LdiLoadsThroughThePointer : Prop :=
  (∀ w : Word, w.extractLsb' 12 4 = 0xA#4 →
    decode w = .ldi (w.extractLsb' 9 3) ((w.extractLsb' 0 9).signExtend 16)) ∧
  (∀ (dr : RegIdx) (off9 : Word) (s s₁ : State) (ptr : Word), s.memRead (s.pc + off9) = (ptr, s₁) →
    ∃ t, exec (.ldi dr off9) s = .next t ∧
      t.reg dr = (s₁.memRead ptr).1 ∧ FlagsShow t (t.reg dr) ∧
      RegsSameBut [dr] s t ∧ t.pc = s.pc ∧ RunSame s t ∧
      CellsSame (s₁.memRead ptr).2 t ∧ t.console = (s₁.memRead ptr).2.console ∧
      (s.pc + off9 ≠ 0xFE00#16 → ptr ≠ 0xFE00#16 → CellsSame s t ∧ t.console = s.console))

/-- LDR (R132): the address is x[BaseR] + offset6 before DR is written, and BaseR changes only as DR. -/
def Obligations.LdrLoadsBasePlusOffset : Prop :=
  (∀ w : Word, w.extractLsb' 12 4 = 0x6#4 →
    decode w = .ldr (w.extractLsb' 9 3) (w.extractLsb' 6 3) ((w.extractLsb' 0 6).signExtend 16)) ∧
  (∀ (dr baseR : RegIdx) (off6 : Word) (s : State), ∃ t, exec (.ldr dr baseR off6) s = .next t ∧
    t.reg dr = (s.memRead (s.reg baseR + off6)).1 ∧ FlagsShow t (t.reg dr) ∧
    RegsSameBut [dr] s t ∧ t.pc = s.pc ∧ RunSame s t ∧
    (s.reg baseR + off6 = 0xFE00#16 → CellsSame s.kbsrPoll t ∧ t.console = s.kbsrPoll.console) ∧
    (s.reg baseR + off6 ≠ 0xFE00#16 → CellsSame s t ∧ t.console = s.console))

/-- LEA (R133): the address itself goes to DR and sets the flags; no memory access, so no poll. -/
def Obligations.LeaLoadsTheAddress : Prop :=
  (∀ w : Word, w.extractLsb' 12 4 = 0xE#4 →
    decode w = .lea (w.extractLsb' 9 3) ((w.extractLsb' 0 9).signExtend 16)) ∧
  (∀ (dr : RegIdx) (off9 : Word) (s : State), ∃ t, exec (.lea dr off9) s = .next t ∧
    t.reg dr = s.pc + off9 ∧ FlagsShow t (t.reg dr) ∧
    RegsSameBut [dr] s t ∧ t.pc = s.pc ∧ CellsSame s t ∧ t.console = s.console ∧ RunSame s t)

/-- ST (R134): MemWrite of x[SR] at pc + PCoffset9; no register and no flag changes. -/
def Obligations.StStoresPcRelative : Prop :=
  (∀ w : Word, w.extractLsb' 12 4 = 0x3#4 →
    decode w = .st (w.extractLsb' 9 3) ((w.extractLsb' 0 9).signExtend 16)) ∧
  (∀ (sr : RegIdx) (off9 : Word) (s : State), ∃ t, exec (.st sr off9) s = .next t ∧
    t.cell (s.pc + off9) = s.reg sr ∧ CellsSameBut [s.pc + off9] s t ∧
    t.console.out = s.console.out ++
      (if s.pc + off9 = 0xFE06#16 then [(s.reg sr).extractLsb' 0 8] else []) ∧
    t.console.inQueue = s.console.inQueue ∧ t.console.inClosed = s.console.inClosed ∧
    t.regs = s.regs ∧ t.cond = s.cond ∧ t.pc = s.pc ∧ RunSame s t)

/-- STI (R135): the pointer is a MemRead, the store a MemWrite at it; no register and no flag changes. -/
def Obligations.StiStoresThroughThePointer : Prop :=
  (∀ w : Word, w.extractLsb' 12 4 = 0xB#4 →
    decode w = .sti (w.extractLsb' 9 3) ((w.extractLsb' 0 9).signExtend 16)) ∧
  (∀ (sr : RegIdx) (off9 : Word) (s s₁ : State) (ptr : Word), s.memRead (s.pc + off9) = (ptr, s₁) →
    ∃ t, exec (.sti sr off9) s = .next t ∧
      t.cell ptr = s.reg sr ∧ CellsSameBut [ptr] s₁ t ∧
      (s.pc + off9 ≠ 0xFE00#16 → CellsSameBut [ptr] s t) ∧
      t.console.out = s.console.out ++ (if ptr = 0xFE06#16 then [(s.reg sr).extractLsb' 0 8] else []) ∧
      t.console.inQueue = s₁.console.inQueue ∧ t.console.inClosed = s.console.inClosed ∧
      t.regs = s.regs ∧ t.cond = s.cond ∧ t.pc = s.pc ∧ RunSame s t)

/-- STR (R136): MemWrite of x[SR] at x[BaseR] + offset6; no register and no flag changes. -/
def Obligations.StrStoresBasePlusOffset : Prop :=
  (∀ w : Word, w.extractLsb' 12 4 = 0x7#4 →
    decode w = .str (w.extractLsb' 9 3) (w.extractLsb' 6 3) ((w.extractLsb' 0 6).signExtend 16)) ∧
  (∀ (sr baseR : RegIdx) (off6 : Word) (s : State), ∃ t, exec (.str sr baseR off6) s = .next t ∧
    t.cell (s.reg baseR + off6) = s.reg sr ∧ CellsSameBut [s.reg baseR + off6] s t ∧
    t.console.out = s.console.out ++
      (if s.reg baseR + off6 = 0xFE06#16 then [(s.reg sr).extractLsb' 0 8] else []) ∧
    t.console.inQueue = s.console.inQueue ∧ t.console.inClosed = s.console.inClosed ∧
    t.regs = s.regs ∧ t.cond = s.cond ∧ t.pc = s.pc ∧ RunSame s t)

/-- Instruction fetch is coherent with stores (R67, R134; the spec's own inference): when a running machine
executes a ST, STI or STR whose address is that of the next instruction, the next step executes the stored word,
whatever the host does before either step (log 5). ST reaches that address exactly with offset 0; STI does where
its pointer read gives it; STR where base plus offset is it. Neither instruction is at 0xFE00, where a fetch
polls (R68). -/
def Obligations.StoredWordIsTheNextInstruction : Prop :=
  ∀ (s t : State) (sr : RegIdx), s.run = .running → s.pc ≠ 0xFE00#16 → s.pc + 1#16 ≠ 0xFE00#16 →
    (decode (s.cell s.pc) = .st sr 0x0000#16 ∨
      (∃ off9, decode (s.cell s.pc) = .sti sr off9 ∧ (s.hostTurn.memRead (s.pc + 1#16 + off9)).1 = s.pc + 1#16) ∨
      (∃ baseR off6, decode (s.cell s.pc) = .str sr baseR off6 ∧ s.reg baseR + off6 = s.pc + 1#16)) →
    step s = .next t →
    step t = exec (decode (s.reg sr)) (t.hostTurn.setPc (s.pc + 2#16))

/-! ## TRAP and the services -/

/-- TRAP (R150, R151): whatever bits 11:8 are (the spec's decision D5), R7 <- the incremented pc and the dispatch
by trapvect8; for every vector no flag, no other register, not the pc and no cell but KBSR and KBDR changes. That
the six services have constructors of their own, whose meanings the dispatch equals, is the model's choice
(log 10). Every other vector faults (the spec's decision D4), and then memory and the Console are as before
(R160). -/
def Obligations.TrapSavesThePcAndDispatches : Prop :=
  (∀ (w : Word) (s : State), w.extractLsb' 12 4 = 0xF#4 →
    exec (decode w) s = exec (.trap (w.extractLsb' 0 8)) s) ∧
  (∀ (v : Byte) (s : State), ∃ t, exec (.trap v) s = .next t ∧ t.reg 7#3 = s.pc ∧
    RegsSameBut [7#3] s t ∧ t.cond = s.cond ∧ t.pc = s.pc ∧ t.host = s.host ∧
    CellsSameBut [0xFE00#16, 0xFE02#16] s t) ∧
  (∀ s : State, exec (.trap 0x20#8) s = exec .trapGetc s ∧ exec (.trap 0x21#8) s = exec .trapOut s ∧
    exec (.trap 0x22#8) s = exec .trapPuts s ∧ exec (.trap 0x23#8) s = exec .trapIn s ∧
    exec (.trap 0x24#8) s = exec .trapPutsp s ∧ exec (.trap 0x25#8) s = exec .trapHalt s) ∧
  (∀ (v : Byte) (s : State), v.toNat < 0x20 ∨ 0x25 < v.toNat →
    ∃ t r, exec (.trap v) s = .next t ∧ t.run = .faulted r ∧ r.cause = .unknownTrap ∧ r.addr = s.pc - 1#16 ∧
      r.detail = .trapVector v ∧ CellsSame s t ∧ t.console = s.console)

/-- GETC and IN start waiting (R152, R156; the spec's decisions D9, D11): R7 <- pc, IN first emits IN_PROMPT,
and the run state becomes WAITING. -/
def Obligations.GetcAndInStartWaiting : Prop :=
  (∀ s : State, ∃ t, exec .trapGetc s = .next t ∧ t.reg 7#3 = s.pc ∧ t.run = .waiting .getc ∧
    t.console = s.console ∧
    RegsSameBut [7#3] s t ∧ t.cond = s.cond ∧ t.pc = s.pc ∧ CellsSame s t ∧ t.host = s.host) ∧
  (∀ s : State, ∃ t, exec .trapIn s = .next t ∧ t.reg 7#3 = s.pc ∧ t.run = .waiting .inChar ∧
    t.console = { s.console with out := s.console.out ++ Config.inPrompt } ∧
    RegsSameBut [7#3] s t ∧ t.cond = s.cond ∧ t.pc = s.pc ∧ CellsSame s t ∧ t.host = s.host)

/-- OUT emits the low byte of R0 and touches nothing else but R7 (R154; the spec's decision D21). -/
def Obligations.OutEmitsTheLowByteOfR0 : Prop :=
  ∀ s : State, ∃ t, exec .trapOut s = .next t ∧ t.reg 7#3 = s.pc ∧
    t.console = { s.console with out := s.console.out ++ [(s.reg 0#3).extractLsb' 0 8] } ∧
    RegsSameBut [7#3] s t ∧ t.cond = s.cond ∧ t.pc = s.pc ∧ CellsSame s t ∧ RunSame s t

/-- HALT (R159; that nothing is emitted is the spec's decision D14): R7 <- pc, run <- HALTED, nothing else,
and no step follows. That `step` says so by the fault `halted` is the model's choice (log 7). -/
def Obligations.HaltStopsTheLoop : Prop :=
  ∀ s : State, ∃ t, exec .trapHalt s = .next t ∧ t.reg 7#3 = s.pc ∧ t.run = .halted ∧ t.console = s.console ∧
    RegsSameBut [7#3] s t ∧ t.cond = s.cond ∧ t.pc = s.pc ∧ CellsSame s t ∧ t.host = s.host ∧
    step t = .fault .halted

/-- PUTS is the loop of R155 (the spec's decision D12), and the loop always ends (the spec's own inference):
in every state the instruction completes in a state that the loop leads to. -/
def Obligations.PutsRunsItsLoopToTheEnd : Prop :=
  ∀ s : State, ∃ t, exec .trapPuts s = .next t ∧ PutsRun (s.reg 0#3) (s.setReg 7#3 s.pc) t ∧ t.reg 7#3 = s.pc ∧
    RegsSameBut [7#3] s t ∧ t.cond = s.cond ∧ t.pc = s.pc ∧ RunSame s t ∧
    CellsSameBut [0xFE00#16, 0xFE02#16] s t

/-- PUTS on a string of `n` non-zero words that ends in a zero word and does not reach KBSR emits the low byte
of each word and leaves the rest of the Console and all of memory alone (R155; the spec's decision D12). -/
def Obligations.PutsEmitsAStringAwayFromKbsr : Prop :=
  ∀ (s : State) (n : Nat), (∀ k : Nat, k ≤ n → s.reg 0#3 + BitVec.ofNat 16 k ≠ 0xFE00#16) →
    (∀ k : Nat, k < n → s.cell (s.reg 0#3 + BitVec.ofNat 16 k) ≠ 0#16) →
    s.cell (s.reg 0#3 + BitVec.ofNat 16 n) = 0#16 →
    ∃ t, exec .trapPuts s = .next t ∧ CellsSame s t ∧
      t.console.inQueue = s.console.inQueue ∧ t.console.inClosed = s.console.inClosed ∧
      t.console.out = s.console.out ++
        (List.range n).map (fun k => (s.cell (s.reg 0#3 + BitVec.ofNat 16 k)).extractLsb' 0 8)

/-- PUTSP is the loop of R158 (the spec's decision D13), and the loop always ends (the spec's own inference). -/
def Obligations.PutspRunsItsLoopToTheEnd : Prop :=
  ∀ s : State, ∃ t, exec .trapPutsp s = .next t ∧ PutspRun (s.reg 0#3) (s.setReg 7#3 s.pc) t ∧
    t.reg 7#3 = s.pc ∧ RegsSameBut [7#3] s t ∧ t.cond = s.cond ∧ t.pc = s.pc ∧ RunSame s t ∧
    CellsSameBut [0xFE00#16, 0xFE02#16] s t

/-- PUTSP on `n` words of two non-zero bytes and then a word with a zero byte, none of them at KBSR, emits the
bytes of each word, bits 7:0 before bits 15:8, and of the last word bits 7:0 unless they are zero; it leaves the
rest of the Console and all of memory alone (R158; the spec's decision D13). -/
def Obligations.PutspEmitsAStringAwayFromKbsr : Prop :=
  ∀ (s : State) (n : Nat), (∀ k : Nat, k ≤ n → s.reg 0#3 + BitVec.ofNat 16 k ≠ 0xFE00#16) →
    (∀ k : Nat, k < n → (s.cell (s.reg 0#3 + BitVec.ofNat 16 k)).extractLsb' 0 8 ≠ 0#8 ∧
      (s.cell (s.reg 0#3 + BitVec.ofNat 16 k)).extractLsb' 8 8 ≠ 0#8) →
    ((s.cell (s.reg 0#3 + BitVec.ofNat 16 n)).extractLsb' 0 8 = 0#8 ∨
      (s.cell (s.reg 0#3 + BitVec.ofNat 16 n)).extractLsb' 8 8 = 0#8) →
    ∃ t, exec .trapPutsp s = .next t ∧ CellsSame s t ∧
      t.console.inQueue = s.console.inQueue ∧ t.console.inClosed = s.console.inClosed ∧
      t.console.out = s.console.out ++
        (List.range n).flatMap (fun k => [(s.cell (s.reg 0#3 + BitVec.ofNat 16 k)).extractLsb' 0 8,
          (s.cell (s.reg 0#3 + BitVec.ofNat 16 k)).extractLsb' 8 8]) ++
        (if (s.cell (s.reg 0#3 + BitVec.ofNat 16 n)).extractLsb' 0 8 = 0#8 then []
          else [(s.cell (s.reg 0#3 + BitVec.ofNat 16 n)).extractLsb' 0 8])

/-! ## Faults -/

/-- RTI and RES fault ReservedOpcode, cause code 1, with their record; no register, flag, cell or pc changes
(R41, R170, R171, R180; the spec's decisions D1, D3). -/
def Obligations.ReservedOpcodesFault : Prop :=
  FaultCause.reservedOpcode.code = 1 ∧
  (∀ w : Word, w.extractLsb' 12 4 = 0x8#4 → decode w = .rti w) ∧
  (∀ w : Word, w.extractLsb' 12 4 = 0xD#4 → decode w = .res w) ∧
  (∀ (w : Word) (s : State), ∃ t, exec (.rti w) s = .next t ∧
    t.run = .faulted { cause := .reservedOpcode, addr := s.pc - 1#16, instr := w, detail := .opcode 0b1000#4 } ∧
    t.regs = s.regs ∧ t.pc = s.pc ∧ t.cond = s.cond ∧ CellsSame s t ∧ t.console = s.console ∧ t.host = s.host) ∧
  (∀ (w : Word) (s : State), ∃ t, exec (.res w) s = .next t ∧
    t.run = .faulted { cause := .reservedOpcode, addr := s.pc - 1#16, instr := w, detail := .opcode 0b1101#4 } ∧
    t.regs = s.regs ∧ t.pc = s.pc ∧ t.cond = s.cond ∧ CellsSame s t ∧ t.console = s.console ∧ t.host = s.host)

/-- A step that fetches a TRAP word with an unknown vector faults UnknownTrap, cause code 2: the record holds the
address and the fetched word, R7 holds the incremented pc, nothing else changes (R41, R160, R180; the spec's
decision D4; log 11) but what the host's turn before it does to the Console (log 5). -/
def Obligations.UnknownTrapVectorFaults : Prop :=
  FaultCause.unknownTrap.code = 2 ∧
  ∀ (s : State) (w : Word), s.run = .running → s.pc ≠ 0xFE00#16 → s.cell s.pc = w →
    w.extractLsb' 12 4 = 0xF#4 → ((w.extractLsb' 0 8).toNat < 0x20 ∨ 0x25 < (w.extractLsb' 0 8).toNat) →
    ∃ t, step s = .next t ∧
      t.run = .faulted { cause := .unknownTrap, addr := s.pc, instr := w,
                         detail := .trapVector (w.extractLsb' 0 8) } ∧
      t.reg 7#3 = s.pc + 1#16 ∧ RegsSameBut [7#3] s t ∧ t.pc = s.pc + 1#16 ∧ t.cond = s.cond ∧
      CellsSame s t ∧ t.console = s.hostTurn.console ∧ t.host = s.host.tail

/-- Only RTI, RES and TRAP with a vector outside the table fault, and they always do (R180, R182; the first
two and the third are the spec's decisions D3, D4). -/
def Obligations.OnlyReservedAndUnknownTrapsFault : Prop :=
  ∀ (i : Instr) (s : State), ∃ t, exec i s = .next t ∧
    (faulting i = true → ∃ r, t.run = .faulted r) ∧
    (faulting i = false → ∀ r, t.run = .faulted r → s.run = .faulted r)

/-- Faults are precise (R181; the spec's decisions D3, D23): the faulting instruction leaves the state before
it, but for the run state and, for UnknownTrap, R7, which holds the incremented pc. -/
def Obligations.FaultsArePrecise : Prop :=
  ∀ (i : Instr) (s t : State), faulting i = true → exec i s = .next t →
    t.pc = s.pc ∧ t.cond = s.cond ∧ CellsSame s t ∧ t.console = s.console ∧ t.host = s.host ∧
    ((∃ r, t.run = .faulted r ∧ r.cause = .reservedOpcode ∧ t.regs = s.regs) ∨
     (∃ r, t.run = .faulted r ∧ r.cause = .unknownTrap ∧ t.reg 7#3 = s.pc ∧ RegsSameBut [7#3] s t))

/-! ## Whole-machine rules -/

/-- The table of registers each instruction writes (R31; the spec's own inference): no other register, and not
the pc where the table says no. -/
def Obligations.InstructionsWriteOnlyTheirRegisters : Prop :=
  ∀ (i : Instr) (s t : State), exec i s = .next t →
    RegsSameBut (regsWritten i) s t ∧ (writesPc i = false → t.pc = s.pc)

/-- Only ADD, AND, NOT, LD, LDI, LDR and LEA change COND, and after them COND agrees with the value written
(R35, R36, R38; for the trap services the spec's decision D28). -/
def Obligations.CondChangesOnlyWithTheValueWritten : Prop :=
  ∀ (i : Instr) (s t : State), exec i s = .next t →
    (flagSetting i = false → t.cond = s.cond) ∧
    (flagSetting i = true → ∃ dr, regsWritten i = [dr] ∧ FlagsShow t (t.reg dr))

/-- No instruction but ST, STI and STR changes a cell other than KBSR and KBDR: reads are MemReads, and the
trap services never store (R60, R161, R212; the spec's own inference). In particular nothing but a store
sets DSR (R58). -/
def Obligations.OnlyStoresChangePlainCells : Prop :=
  ∀ (i : Instr) (s t : State), exec i s = .next t → storing i = false →
    CellsSameBut [0xFE00#16, 0xFE02#16] s t

/-- The CORE consumes input from the front and appends output, and it never ends input (R44, R66; the spec's
decision D8). -/
def Obligations.CoreConsumesInputAndAppendsOutput : Prop :=
  ∀ (i : Instr) (s t : State), exec i s = .next t →
    (∃ n, t.console.inQueue = s.console.inQueue.drop n) ∧ t.console.inClosed = s.console.inClosed ∧
    (∃ bs, t.console.out = s.console.out ++ bs)

/-- Bytes once emitted stay: every step, completions and host turns included, only appends to `out`
(R44, R66, R190; the spec's own inference). -/
def Obligations.OutputOnlyGrows : Prop :=
  ∀ s t : State, step s = .next t → ∃ bs, t.console.out = s.console.out ++ bs

/-- The moves the host has still to make are not seen by an instruction (R188; log 5): executing it under
another schedule gives the same state but for the schedule. -/
def Obligations.InstructionsDoNotSeeTheHostSchedule : Prop :=
  ∀ (i : Instr) (s t : State) (h : List (List HostMove)), exec i s = .next t →
    exec i (s.setHost h) = .next (t.setHost h)

/-- Reset memory is in canonical form (log 1). -/
def Obligations.ResetMemoryIsCanonical : Prop := MemoryCanonical State.reset

/-- Every launch gives a canonical memory (R211; log 1). -/
def Obligations.LaunchedMemoryIsCanonical : Prop :=
  ∀ (l : Launch) (t : State), launch l = .next t → MemoryCanonical t

/-- Every step keeps memory canonical: addresses below 65,536, strictly rising, no zero entry (R42, R51;
log 1). -/
def Obligations.StepKeepsMemoryCanonical : Prop :=
  ∀ s t : State, MemoryCanonical s → step s = .next t → MemoryCanonical t

/-- A run ends in exactly one of the ways of R108: normally, in error, blocked, or never. The run is the one under
the finite schedule that the state carries (log 5); that a hold shows as the fault `held` of `step`, once no turn
is to come, is the model's choice (logs 7, 8). -/
def Obligations.RunEndsInExactlyOneWay : Prop :=
  ∀ s : State,
    (EndsNormally s ∧ ¬EndsInError s ∧ ¬ComesToHold s ∧ ¬RunsForever s) ∨
    (¬EndsNormally s ∧ EndsInError s ∧ ¬ComesToHold s ∧ ¬RunsForever s) ∨
    (¬EndsNormally s ∧ ¬EndsInError s ∧ ComesToHold s ∧ ¬RunsForever s) ∨
    (¬EndsNormally s ∧ ¬EndsInError s ∧ ¬ComesToHold s ∧ RunsForever s)

/-- Under every interleaving of host moves and CORE steps (R188; the spec's decision D8), unending input included, a
run ends in exactly one of the ways of R108: normally, in error, blocked, or never. That a turn of moves, be it
empty, precedes each model step is the model's choice (logs 5, 8). -/
def Obligations.RunEndsInExactlyOneWayUnderEverySchedule : Prop :=
  ∀ (σ : Schedule) (s : State),
    (EndsNormallyUnder σ s ∧ ¬EndsInErrorUnder σ s ∧ ¬BlockedUnder σ s ∧ ¬RunsForeverUnder σ s) ∨
    (¬EndsNormallyUnder σ s ∧ EndsInErrorUnder σ s ∧ ¬BlockedUnder σ s ∧ ¬RunsForeverUnder σ s) ∨
    (¬EndsNormallyUnder σ s ∧ ¬EndsInErrorUnder σ s ∧ BlockedUnder σ s ∧ ¬RunsForeverUnder σ s) ∨
    (¬EndsNormallyUnder σ s ∧ ¬EndsInErrorUnder σ s ∧ ¬BlockedUnder σ s ∧ RunsForeverUnder σ s)

/-- The finite schedule that a state carries is the unending one that makes its turns and then no move: the run ends
the same way under both (R108; logs 5, 7, 8). -/
def Obligations.FiniteSchedulesAreUnendingOnes : Prop :=
  ∀ s : State,
    (EndsNormally s ↔ EndsNormallyUnder (Schedule.ofTurns s.host) s) ∧
    (EndsInError s ↔ EndsInErrorUnder (Schedule.ofTurns s.host) s) ∧
    (ComesToHold s ↔ BlockedUnder (Schedule.ofTurns s.host) s) ∧
    (RunsForever s ↔ RunsForeverUnder (Schedule.ofTurns s.host) s)
end

