-- ==== Sys2Proof/Laws/Decode.lean ====
section
/-! SUPPORT. The opcode and trap tables are one to one, and each field of an encoded word is the field that
was put there. -/

namespace Sys2Proof

theorem opcodeOf_opcodeBits (op : Opcode) : opcodeOf (opcodeBits op) = op := by cases op <;> rfl

theorem opcodeBits_opcodeOf : ∀ b : BitVec 4, opcodeBits (opcodeOf b) = b := by decide

theorem serviceOf_vectorOf (k : Service) : serviceOf (vectorOf k) = some k := by cases k <;> rfl

/-- The table's vectors are 0x20 to 0x25 and no others. -/
theorem serviceOf_isNone (v : Byte) : (serviceOf v).isNone = decide (v.toNat < 0x20 ∨ 0x25 < v.toNat) := by
  revert v; decide

theorem fitsSigned_iff {n : Nat} {v : Word} : fitsSigned n v = true ↔ sext (bitField v 0 n) = v := by
  rw [fitsSigned, beq_iff_eq, eq_comm]

theorem fitsSigned_sext {n : Nat} (hn : n ≤ 16) (b : BitVec n) : fitsSigned n (sext b) = true := by
  have h : bitField (sext b) 0 n = b := by
    refine BitVec.eq_of_getLsbD_eq fun i hi => ?_
    simp only [bitField, sext, BitVec.getLsbD_extractLsb', BitVec.getLsbD_signExtend, Nat.zero_add, hi,
      Nat.lt_of_lt_of_le hi hn, decide_true, Bool.true_and, ↓reduceIte]
  rw [fitsSigned_iff, h]

/-! ## What each opcode decodes to -/

theorem decode_br {w : Word} (h : bitField w 12 4 = 0x0#4) : decode w =
    .br (bitField w 9 3) (sext (bitField w 0 9)) := by
  simp only [decode, h, show opcodeOf 0x0#4 = .br from rfl]

theorem decode_add {w : Word} (h : bitField w 12 4 = 0x1#4) : decode w =
    if w.getLsbD 5 then .addImm (bitField w 9 3) (bitField w 6 3) (sext (bitField w 0 5))
      else .addReg (bitField w 9 3) (bitField w 6 3) (bitField w 0 3) := by
  simp only [decode, h, show opcodeOf 0x1#4 = .add from rfl]

theorem decode_ld {w : Word} (h : bitField w 12 4 = 0x2#4) : decode w =
    .ld (bitField w 9 3) (sext (bitField w 0 9)) := by
  simp only [decode, h, show opcodeOf 0x2#4 = .ld from rfl]

theorem decode_st {w : Word} (h : bitField w 12 4 = 0x3#4) : decode w =
    .st (bitField w 9 3) (sext (bitField w 0 9)) := by
  simp only [decode, h, show opcodeOf 0x3#4 = .st from rfl]

theorem decode_jsr {w : Word} (h : bitField w 12 4 = 0x4#4) : decode w =
    if w.getLsbD 11 then .jsr (sext (bitField w 0 11)) else .jsrr (bitField w 6 3) := by
  simp only [decode, h, show opcodeOf 0x4#4 = .jsr from rfl]

theorem decode_and {w : Word} (h : bitField w 12 4 = 0x5#4) : decode w =
    if w.getLsbD 5 then .andImm (bitField w 9 3) (bitField w 6 3) (sext (bitField w 0 5))
      else .andReg (bitField w 9 3) (bitField w 6 3) (bitField w 0 3) := by
  simp only [decode, h, show opcodeOf 0x5#4 = .and from rfl]

theorem decode_ldr {w : Word} (h : bitField w 12 4 = 0x6#4) : decode w =
    .ldr (bitField w 9 3) (bitField w 6 3) (sext (bitField w 0 6)) := by
  simp only [decode, h, show opcodeOf 0x6#4 = .ldr from rfl]

theorem decode_str {w : Word} (h : bitField w 12 4 = 0x7#4) : decode w =
    .str (bitField w 9 3) (bitField w 6 3) (sext (bitField w 0 6)) := by
  simp only [decode, h, show opcodeOf 0x7#4 = .str from rfl]

theorem decode_rti {w : Word} (h : bitField w 12 4 = 0x8#4) : decode w =
    .rti w := by
  simp only [decode, h, show opcodeOf 0x8#4 = .rti from rfl]

theorem decode_not {w : Word} (h : bitField w 12 4 = 0x9#4) : decode w =
    .not (bitField w 9 3) (bitField w 6 3) := by
  simp only [decode, h, show opcodeOf 0x9#4 = .not from rfl]

theorem decode_ldi {w : Word} (h : bitField w 12 4 = 0xA#4) : decode w =
    .ldi (bitField w 9 3) (sext (bitField w 0 9)) := by
  simp only [decode, h, show opcodeOf 0xA#4 = .ldi from rfl]

theorem decode_sti {w : Word} (h : bitField w 12 4 = 0xB#4) : decode w =
    .sti (bitField w 9 3) (sext (bitField w 0 9)) := by
  simp only [decode, h, show opcodeOf 0xB#4 = .sti from rfl]

theorem decode_jmp {w : Word} (h : bitField w 12 4 = 0xC#4) : decode w =
    decodeJump (bitField w 6 3) := by
  simp only [decode, h, show opcodeOf 0xC#4 = .jmp from rfl]

theorem decode_res {w : Word} (h : bitField w 12 4 = 0xD#4) : decode w =
    .res w := by
  simp only [decode, h, show opcodeOf 0xD#4 = .res from rfl]

theorem decode_lea {w : Word} (h : bitField w 12 4 = 0xE#4) : decode w =
    .lea (bitField w 9 3) (sext (bitField w 0 9)) := by
  simp only [decode, h, show opcodeOf 0xE#4 = .lea from rfl]

theorem decode_trap {w : Word} (h : bitField w 12 4 = 0xF#4) : decode w =
    decodeTrap (bitField w 0 8) := by
  simp only [decode, h, show opcodeOf 0xF#4 = .trap from rfl]

/-! ## Fields of encoded words -/

theorem encodeOpr_fields (op : Opcode) (dr sr1 sr2 : RegIdx) :
    bitField (encodeOpr op dr sr1 sr2) 12 4 = opcodeBits op ∧ bitField (encodeOpr op dr sr1 sr2) 9 3 = dr ∧
      bitField (encodeOpr op dr sr1 sr2) 6 3 = sr1 ∧ bitField (encodeOpr op dr sr1 sr2) 0 3 = sr2 ∧
      (encodeOpr op dr sr1 sr2).getLsbD 5 = false := by
  refine ⟨?_, ?_, ?_, ?_, ?_⟩
  iterate 4
    refine BitVec.eq_of_getLsbD_eq fun i hi => ?_
    rw [bitField, BitVec.getLsbD_extractLsb']
    change (decide _ && BitVec.getLsbD (w := 4 + 3 + 3 + 3 + 3) _ _) = _
    simp only [encodeOpr, BitVec.getLsbD_append, hi, decide_true, Bool.true_and]
    split_ifs <;> first | omega | (congr 1; omega)
  change BitVec.getLsbD (w := 4 + 3 + 3 + 3 + 3) _ _ = _
  simp only [encodeOpr, BitVec.getLsbD_append]
  rfl

theorem encodeOpi_fields (op : Opcode) (dr sr1 : RegIdx) (imm : Word) :
    bitField (encodeOpi op dr sr1 imm) 12 4 = opcodeBits op ∧ bitField (encodeOpi op dr sr1 imm) 9 3 = dr ∧
      bitField (encodeOpi op dr sr1 imm) 6 3 = sr1 ∧ bitField (encodeOpi op dr sr1 imm) 0 5 = bitField imm 0 5 ∧
      (encodeOpi op dr sr1 imm).getLsbD 5 = true := by
  refine ⟨?_, ?_, ?_, ?_, ?_⟩
  iterate 4
    refine BitVec.eq_of_getLsbD_eq fun i hi => ?_
    rw [bitField, BitVec.getLsbD_extractLsb']
    change (decide _ && BitVec.getLsbD (w := 4 + 3 + 3 + 1 + 5) _ _) = _
    simp only [encodeOpi, BitVec.getLsbD_append, hi, decide_true, Bool.true_and]
    split_ifs <;> first | omega | (congr 1; omega)
  change BitVec.getLsbD (w := 4 + 3 + 3 + 1 + 5) _ _ = _
  simp only [encodeOpi, BitVec.getLsbD_append]
  rfl

theorem encodePc9_fields (op : Opcode) (r : BitVec 3) (off : Word) :
    bitField (encodePc9 op r off) 12 4 = opcodeBits op ∧ bitField (encodePc9 op r off) 9 3 = r ∧
      bitField (encodePc9 op r off) 0 9 = bitField off 0 9 := by
  refine ⟨?_, ?_, ?_⟩
  iterate 3
    refine BitVec.eq_of_getLsbD_eq fun i hi => ?_
    rw [bitField, BitVec.getLsbD_extractLsb']
    change (decide _ && BitVec.getLsbD (w := 4 + 3 + 9) _ _) = _
    simp only [encodePc9, BitVec.getLsbD_append, hi, decide_true, Bool.true_and]
    split_ifs <;> first | omega | (congr 1; omega)

theorem encodeBase6_fields (op : Opcode) (r baseR : RegIdx) (off : Word) :
    bitField (encodeBase6 op r baseR off) 12 4 = opcodeBits op ∧ bitField (encodeBase6 op r baseR off) 9 3 = r ∧
      bitField (encodeBase6 op r baseR off) 6 3 = baseR ∧
      bitField (encodeBase6 op r baseR off) 0 6 = bitField off 0 6 := by
  refine ⟨?_, ?_, ?_, ?_⟩
  iterate 4
    refine BitVec.eq_of_getLsbD_eq fun i hi => ?_
    rw [bitField, BitVec.getLsbD_extractLsb']
    change (decide _ && BitVec.getLsbD (w := 4 + 3 + 3 + 6) _ _) = _
    simp only [encodeBase6, BitVec.getLsbD_append, hi, decide_true, Bool.true_and]
    split_ifs <;> first | omega | (congr 1; omega)

theorem encodeBase_fields (op : Opcode) (baseR : RegIdx) :
    bitField (encodeBase op baseR) 12 4 = opcodeBits op ∧ bitField (encodeBase op baseR) 6 3 = baseR ∧
      (encodeBase op baseR).getLsbD 11 = false := by
  refine ⟨?_, ?_, ?_⟩
  iterate 2
    refine BitVec.eq_of_getLsbD_eq fun i hi => ?_
    rw [bitField, BitVec.getLsbD_extractLsb']
    change (decide _ && BitVec.getLsbD (w := 4 + 3 + 3 + 6) _ _) = _
    simp only [encodeBase, BitVec.getLsbD_append, hi, decide_true, Bool.true_and]
    split_ifs <;> first | omega | (congr 1; omega)
  change BitVec.getLsbD (w := 4 + 3 + 3 + 6) _ _ = _
  simp only [encodeBase, BitVec.getLsbD_append]
  rfl

theorem encodeTrap_fields (v : Byte) :
    bitField (encodeTrap v) 12 4 = opcodeBits .trap ∧ bitField (encodeTrap v) 0 8 = v := by
  refine ⟨?_, ?_⟩
  iterate 2
    refine BitVec.eq_of_getLsbD_eq fun i hi => ?_
    rw [bitField, BitVec.getLsbD_extractLsb']
    change (decide _ && BitVec.getLsbD (w := 4 + 4 + 8) _ _) = _
    simp only [encodeTrap, BitVec.getLsbD_append, hi, decide_true, Bool.true_and]
    split_ifs <;> first | omega | (congr 1; omega)

theorem encodeJsr_fields (off : Word) :
    bitField (encode (.jsr off)) 12 4 = opcodeBits .jsr ∧ bitField (encode (.jsr off)) 0 11 = bitField off 0 11 ∧
      (encode (.jsr off)).getLsbD 11 = true := by
  refine ⟨?_, ?_, ?_⟩
  iterate 2
    refine BitVec.eq_of_getLsbD_eq fun i hi => ?_
    rw [bitField, BitVec.getLsbD_extractLsb']
    change (decide _ && BitVec.getLsbD (w := 4 + 1 + 11) _ _) = _
    simp only [encode, BitVec.getLsbD_append, hi, decide_true, Bool.true_and]
    split_ifs <;> first | omega | (congr 1; omega)
  change BitVec.getLsbD (w := 4 + 1 + 11) _ _ = _
  simp only [encode, BitVec.getLsbD_append]
  rfl

theorem encodeNot_fields (dr sr : RegIdx) :
    bitField (encode (.not dr sr)) 12 4 = opcodeBits .not ∧ bitField (encode (.not dr sr)) 9 3 = dr ∧
      bitField (encode (.not dr sr)) 6 3 = sr := by
  refine ⟨?_, ?_, ?_⟩
  iterate 3
    refine BitVec.eq_of_getLsbD_eq fun i hi => ?_
    rw [bitField, BitVec.getLsbD_extractLsb']
    change (decide _ && BitVec.getLsbD (w := 4 + 3 + 3 + 6) _ _) = _
    simp only [encode, BitVec.getLsbD_append, hi, decide_true, Bool.true_and]
    split_ifs <;> first | omega | (congr 1; omega)

theorem decodeTrap_vectorOf (k : Service) : decodeTrap (vectorOf k) = serviceInstr k := by
  simp [decodeTrap, serviceOf_vectorOf]

end Sys2Proof
end

