-- ==== Sys2Proof/Laws/State.lean ====
section
/-! SUPPORT. One lemma per field per update, each true by definition, so that no later proof unfolds a
record update. -/

namespace Sys2Proof.Machine

@[simp] theorem State.setPc_regs (s : State) (v : Word) : (s.setPc v).regs = s.regs := rfl
@[simp] theorem State.setPc_pc (s : State) (v : Word) : (s.setPc v).pc = v := rfl
@[simp] theorem State.setPc_cond (s : State) (v : Word) : (s.setPc v).cond = s.cond := rfl
@[simp] theorem State.setPc_mem (s : State) (v : Word) : (s.setPc v).mem = s.mem := rfl
@[simp] theorem State.setPc_run (s : State) (v : Word) : (s.setPc v).run = s.run := rfl
@[simp] theorem State.setPc_console (s : State) (v : Word) : (s.setPc v).console = s.console := rfl
@[simp] theorem State.setPc_host (s : State) (v : Word) : (s.setPc v).host = s.host := rfl
@[simp] theorem State.setCond_regs (s : State) (v : Cond) : (s.setCond v).regs = s.regs := rfl
@[simp] theorem State.setCond_pc (s : State) (v : Cond) : (s.setCond v).pc = s.pc := rfl
@[simp] theorem State.setCond_cond (s : State) (v : Cond) : (s.setCond v).cond = v := rfl
@[simp] theorem State.setCond_mem (s : State) (v : Cond) : (s.setCond v).mem = s.mem := rfl
@[simp] theorem State.setCond_run (s : State) (v : Cond) : (s.setCond v).run = s.run := rfl
@[simp] theorem State.setCond_console (s : State) (v : Cond) : (s.setCond v).console = s.console := rfl
@[simp] theorem State.setCond_host (s : State) (v : Cond) : (s.setCond v).host = s.host := rfl
@[simp] theorem State.setMem_regs (s : State) (v : Memory) : (s.setMem v).regs = s.regs := rfl
@[simp] theorem State.setMem_pc (s : State) (v : Memory) : (s.setMem v).pc = s.pc := rfl
@[simp] theorem State.setMem_cond (s : State) (v : Memory) : (s.setMem v).cond = s.cond := rfl
@[simp] theorem State.setMem_mem (s : State) (v : Memory) : (s.setMem v).mem = v := rfl
@[simp] theorem State.setMem_run (s : State) (v : Memory) : (s.setMem v).run = s.run := rfl
@[simp] theorem State.setMem_console (s : State) (v : Memory) : (s.setMem v).console = s.console := rfl
@[simp] theorem State.setMem_host (s : State) (v : Memory) : (s.setMem v).host = s.host := rfl
@[simp] theorem State.setRun_regs (s : State) (v : RunState) : (s.setRun v).regs = s.regs := rfl
@[simp] theorem State.setRun_pc (s : State) (v : RunState) : (s.setRun v).pc = s.pc := rfl
@[simp] theorem State.setRun_cond (s : State) (v : RunState) : (s.setRun v).cond = s.cond := rfl
@[simp] theorem State.setRun_mem (s : State) (v : RunState) : (s.setRun v).mem = s.mem := rfl
@[simp] theorem State.setRun_run (s : State) (v : RunState) : (s.setRun v).run = v := rfl
@[simp] theorem State.setRun_console (s : State) (v : RunState) : (s.setRun v).console = s.console := rfl
@[simp] theorem State.setRun_host (s : State) (v : RunState) : (s.setRun v).host = s.host := rfl
@[simp] theorem State.setConsole_regs (s : State) (v : Console) : (s.setConsole v).regs = s.regs := rfl
@[simp] theorem State.setConsole_pc (s : State) (v : Console) : (s.setConsole v).pc = s.pc := rfl
@[simp] theorem State.setConsole_cond (s : State) (v : Console) : (s.setConsole v).cond = s.cond := rfl
@[simp] theorem State.setConsole_mem (s : State) (v : Console) : (s.setConsole v).mem = s.mem := rfl
@[simp] theorem State.setConsole_run (s : State) (v : Console) : (s.setConsole v).run = s.run := rfl
@[simp] theorem State.setConsole_console (s : State) (v : Console) : (s.setConsole v).console = v := rfl
@[simp] theorem State.setConsole_host (s : State) (v : Console) : (s.setConsole v).host = s.host := rfl
@[simp] theorem State.setHost_regs (s : State) (v : List (List HostMove)) : (s.setHost v).regs = s.regs := rfl
@[simp] theorem State.setHost_pc (s : State) (v : List (List HostMove)) : (s.setHost v).pc = s.pc := rfl
@[simp] theorem State.setHost_cond (s : State) (v : List (List HostMove)) : (s.setHost v).cond = s.cond := rfl
@[simp] theorem State.setHost_mem (s : State) (v : List (List HostMove)) : (s.setHost v).mem = s.mem := rfl
@[simp] theorem State.setHost_run (s : State) (v : List (List HostMove)) : (s.setHost v).run = s.run := rfl
@[simp] theorem State.setHost_console (s : State) (v : List (List HostMove)) : (s.setHost v).console = s.console := rfl
@[simp] theorem State.setHost_host (s : State) (v : List (List HostMove)) : (s.setHost v).host = v := rfl
@[simp] theorem State.setReg_pc (s : State) (r : RegIdx) (v : Word) : (s.setReg r v).pc = s.pc := rfl
@[simp] theorem State.setReg_cond (s : State) (r : RegIdx) (v : Word) : (s.setReg r v).cond = s.cond := rfl
@[simp] theorem State.setReg_mem (s : State) (r : RegIdx) (v : Word) : (s.setReg r v).mem = s.mem := rfl
@[simp] theorem State.setReg_run (s : State) (r : RegIdx) (v : Word) : (s.setReg r v).run = s.run := rfl
@[simp] theorem State.setReg_console (s : State) (r : RegIdx) (v : Word) : (s.setReg r v).console = s.console := rfl
@[simp] theorem State.setReg_host (s : State) (r : RegIdx) (v : Word) : (s.setReg r v).host = s.host := rfl

/-! Registers and cells through each update. -/

@[simp] theorem State.setPc_reg (s : State) (v : Word) (r : RegIdx) : (s.setPc v).reg r = s.reg r := rfl
@[simp] theorem State.setCond_reg (s : State) (v : Cond) (r : RegIdx) : (s.setCond v).reg r = s.reg r := rfl
@[simp] theorem State.setMem_reg (s : State) (v : Memory) (r : RegIdx) : (s.setMem v).reg r = s.reg r := rfl
@[simp] theorem State.setRun_reg (s : State) (v : RunState) (r : RegIdx) : (s.setRun v).reg r = s.reg r := rfl
@[simp] theorem State.setConsole_reg (s : State) (v : Console) (r : RegIdx) : (s.setConsole v).reg r = s.reg r := rfl
@[simp] theorem State.setHost_reg (s : State) (v : List (List HostMove)) (r : RegIdx) : (s.setHost v).reg r = s.reg r := rfl
@[simp] theorem State.setPc_cell (s : State) (v : Word) (a : Word) : (s.setPc v).cell a = s.cell a := rfl
@[simp] theorem State.setCond_cell (s : State) (v : Cond) (a : Word) : (s.setCond v).cell a = s.cell a := rfl
@[simp] theorem State.setRun_cell (s : State) (v : RunState) (a : Word) : (s.setRun v).cell a = s.cell a := rfl
@[simp] theorem State.setConsole_cell (s : State) (v : Console) (a : Word) : (s.setConsole v).cell a = s.cell a := rfl
@[simp] theorem State.setHost_cell (s : State) (v : List (List HostMove)) (a : Word) : (s.setHost v).cell a = s.cell a := rfl
@[simp] theorem State.setReg_cell (s : State) (r : RegIdx) (v a : Word) : (s.setReg r v).cell a = s.cell a := rfl
@[simp] theorem State.setCell_regs (s : State) (a v : Word) : (s.setCell a v).regs = s.regs := rfl
@[simp] theorem State.setCell_pc (s : State) (a v : Word) : (s.setCell a v).pc = s.pc := rfl
@[simp] theorem State.setCell_cond (s : State) (a v : Word) : (s.setCell a v).cond = s.cond := rfl
@[simp] theorem State.setCell_run (s : State) (a v : Word) : (s.setCell a v).run = s.run := rfl
@[simp] theorem State.setCell_console (s : State) (a v : Word) : (s.setCell a v).console = s.console := rfl
@[simp] theorem State.setCell_host (s : State) (a v : Word) : (s.setCell a v).host = s.host := rfl
@[simp] theorem State.setCell_reg (s : State) (a v : Word) (r : RegIdx) : (s.setCell a v).reg r = s.reg r := rfl

/-- Equal register files read the same. -/
theorem State.reg_congr {s t : State} (h : t.regs = s.regs) (r : RegIdx) : t.reg r = s.reg r := by
  rw [State.reg, h, State.reg]

/-- A register reads back what was written to it, and every other register is as before. -/
theorem State.reg_setReg (s : State) (r r' : RegIdx) (v : Word) :
    (s.setReg r v).reg r' = if r' = r then v else s.reg r' := by
  simp only [State.reg, State.setReg, Vector.getElem_set, BitVec.toNat_inj, eq_comm]

@[simp] theorem State.reg_setReg_same (s : State) (r : RegIdx) (v : Word) : (s.setReg r v).reg r = v := by
  simp [State.reg_setReg]

theorem State.reg_setReg_of_ne (s : State) {r r' : RegIdx} (v : Word) (h : r' ≠ r) :
    (s.setReg r v).reg r' = s.reg r' := by
  simp [State.reg_setReg, h]

end Sys2Proof.Machine
end

