-- ==== Sys2Proof/Laws/Memory.lean ====
section
/-! SUPPORT. Memory: a read after a write, every operation keeps the canonical form, and in that form equal
contents are equal data. -/

namespace Sys2Proof.Machine

/-! ## Reading after a write -/

theorem Memory.get_erase (m : Memory) (a b : Nat) :
    Memory.get (Memory.erase m a) b = if b = a then Memory.unlisted else Memory.get m b := by
  induction m with
  | nil => simp [Memory.erase, Memory.get]
  | cons e m ih =>
    obtain ⟨k, w⟩ := e
    by_cases hk : k = a <;> by_cases hb : k = b <;> simp_all [Memory.erase, Memory.get]

theorem Memory.get_insert {m : Memory} {a : Nat} (h : Memory.get m a = Memory.unlisted)
    (hm : ∀ e ∈ m, e.1 ≠ a) (b : Nat) (v : Word) :
    Memory.get (Memory.insert m a v) b = if b = a then v else Memory.get m b := by
  induction m with
  | nil => simp [Memory.insert, Memory.get, eq_comm]
  | cons e m ih =>
    obtain ⟨k, w⟩ := e
    have hk : k ≠ a := hm (k, w) (by simp)
    unfold Memory.insert
    split
    · simp only [Memory.get, eq_comm]
    · simp only [Memory.get]
      by_cases hb : k = b
      · subst hb; simp [hk]
      · rw [if_neg hb, if_neg hb]
        exact ih (by simpa [Memory.get, hk] using h) (fun e he => hm e (by simp [he]))

theorem Memory.erase_ne {m : Memory} {a : Nat} : ∀ e ∈ Memory.erase m a, e.1 ≠ a := by
  induction m with
  | nil => simp [Memory.erase]
  | cons e m ih =>
    unfold Memory.erase
    split
    · exact ih
    · simpa using ⟨by assumption, fun k w h => ih (k, w) h⟩

/-- A read after a write gives the value written, and every other cell is as before. -/
theorem Memory.get_put (m : Memory) (a b : Nat) (v : Word) :
    Memory.get (Memory.put m a v) b = if b = a then v else Memory.get m b := by
  unfold Memory.put
  split
  · rename_i hv; rw [Memory.get_erase, hv]
  · rw [Memory.get_insert (by simp [Memory.get_erase]) Memory.erase_ne, Memory.get_erase]
    split <;> simp_all

/-! ## The canonical form -/

theorem Memory.wfFrom_cons (lo k : Nat) (w : Word) (m : Memory) :
    Memory.wfFrom lo ((k, w) :: m) = true ↔
      lo ≤ k ∧ k < 65536 ∧ w ≠ Memory.unlisted ∧ Memory.wfFrom (k + 1) m = true := by
  simp [Memory.wfFrom, and_assoc]

theorem Memory.wfFrom_mono {m : Memory} {lo lo' : Nat} (h : Memory.wfFrom lo m = true) (hl : lo' ≤ lo) :
    Memory.wfFrom lo' m = true := by
  cases m with
  | nil => rfl
  | cons e m =>
    rw [Memory.wfFrom_cons] at h ⊢
    exact ⟨by omega, h.2⟩

theorem Memory.wfFrom_erase {m : Memory} {lo : Nat} (a : Nat) (h : Memory.wfFrom lo m = true) :
    Memory.wfFrom lo (Memory.erase m a) = true := by
  induction m generalizing lo with
  | nil => rfl
  | cons e m ih =>
    obtain ⟨k, w⟩ := e
    rw [Memory.wfFrom_cons] at h
    unfold Memory.erase
    split
    · exact Memory.wfFrom_mono (ih h.2.2.2) (by omega)
    · rw [Memory.wfFrom_cons]
      exact ⟨h.1, h.2.1, h.2.2.1, ih h.2.2.2⟩

theorem Memory.wfFrom_insert {m : Memory} {lo a : Nat} {v : Word} (h : Memory.wfFrom lo m = true)
    (hm : ∀ e ∈ m, e.1 ≠ a) (hl : lo ≤ a) (ha : a < 65536) (hv : v ≠ Memory.unlisted) :
    Memory.wfFrom lo (Memory.insert m a v) = true := by
  induction m generalizing lo with
  | nil => simpa [Memory.insert, Memory.wfFrom] using ⟨⟨hl, ha⟩, hv⟩
  | cons e m ih =>
    obtain ⟨k, w⟩ := e
    have hk : k ≠ a := hm (k, w) (by simp)
    rw [Memory.wfFrom_cons] at h
    unfold Memory.insert
    split
    · rw [Memory.wfFrom_cons, Memory.wfFrom_cons]
      exact ⟨hl, ha, hv, by omega, h.2⟩
    · rw [Memory.wfFrom_cons]
      exact ⟨h.1, h.2.1, h.2.2.1, ih h.2.2.2 (fun e he => hm e (by simp [he])) (by omega)⟩

/-- A write to an address of the space keeps the canonical form. -/
theorem Memory.wf_put {m : Memory} {a : Nat} (v : Word) (h : m.wf = true) (ha : a < 65536) :
    (Memory.put m a v).wf = true := by
  unfold Memory.put
  split
  · exact Memory.wfFrom_erase a h
  · exact Memory.wfFrom_insert (Memory.wfFrom_erase a h) Memory.erase_ne (Nat.zero_le a) ha (by assumption)

theorem Memory.get_of_lt {m : Memory} {lo a : Nat} (h : Memory.wfFrom lo m = true) (ha : a < lo) :
    Memory.get m a = Memory.unlisted := by
  induction m generalizing lo with
  | nil => rfl
  | cons e m ih =>
    obtain ⟨k, w⟩ := e
    rw [Memory.wfFrom_cons] at h
    rw [Memory.get, if_neg (by omega)]
    exact ih h.2.2.2 (by omega)

/-! ## Cells of the state -/

/-- A cell reads back what was stored in it, and every other cell is as before. -/
theorem State.cell_setCell (s : State) (a b v : Word) :
    (s.setCell a v).cell b = if b = a then v else s.cell b := by
  simp only [State.cell, State.setCell, State.setMem_mem, Memory.get_put, BitVec.toNat_inj]

@[simp] theorem State.cell_setCell_same (s : State) (a v : Word) : (s.setCell a v).cell a = v := by
  simp [State.cell_setCell]

theorem State.cell_setCell_of_ne (s : State) {a b : Word} (v : Word) (h : b ≠ a) :
    (s.setCell a v).cell b = s.cell b := by
  simp [State.cell_setCell, h]

theorem State.setCell_wf {s : State} (a v : Word) (h : s.mem.wf = true) : (s.setCell a v).mem.wf = true :=
  Memory.wf_put v h a.isLt

end Sys2Proof.Machine
end

