-- ==== Sys2Proof/Laws/Ops.lean ====
section
/-! SUPPORT. What each shared operation does, field by field: the Console, MemRead, MemWrite, fetch, flags,
the trap link and fault entry. -/

namespace Sys2Proof.Machine

/-! ## The Console -/

@[simp] theorem State.consoleEmit_regs (s : State) (b : Byte) : (s.consoleEmit b).regs = s.regs := rfl
@[simp] theorem State.consoleEmit_pc (s : State) (b : Byte) : (s.consoleEmit b).pc = s.pc := rfl
@[simp] theorem State.consoleEmit_cond (s : State) (b : Byte) : (s.consoleEmit b).cond = s.cond := rfl
@[simp] theorem State.consoleEmit_mem (s : State) (b : Byte) : (s.consoleEmit b).mem = s.mem := rfl
@[simp] theorem State.consoleEmit_run (s : State) (b : Byte) : (s.consoleEmit b).run = s.run := rfl
@[simp] theorem State.consoleEmit_host (s : State) (b : Byte) : (s.consoleEmit b).host = s.host := rfl
@[simp] theorem State.consoleEmit_reg (s : State) (b : Byte) (r : RegIdx) : (s.consoleEmit b).reg r = s.reg r := rfl
@[simp] theorem State.consoleEmit_cell (s : State) (b : Byte) (a : Word) : (s.consoleEmit b).cell a = s.cell a := rfl

@[simp] theorem State.consoleEmit_console (s : State) (b : Byte) :
    (s.consoleEmit b).console = { s.console with out := s.console.out ++ [b] } := rfl

/-- Emitting bytes one after the other appends them all to `out`, in order. -/
theorem State.consoleEmitAll_eq (s : State) (bs : List Byte) :
    s.consoleEmitAll bs = s.setConsole { s.console with out := s.console.out ++ bs } := by
  induction bs generalizing s with
  | nil => simp [State.consoleEmitAll, State.setConsole]
  | cons b bs ih =>
    have : s.consoleEmitAll (b :: bs) = (s.consoleEmit b).consoleEmitAll bs := rfl
    rw [this, ih]
    simp [State.consoleEmit, State.setConsole]

/-- ConsolePoll answers a byte and consumes it, or leaves the state alone. -/
theorem State.consolePoll_cases (s : State) :
    (∃ b rest, s.console.inQueue = b :: rest ∧
      s.consolePoll = (.char b, s.setConsole { s.console with inQueue := rest })) ∨
    (s.console.inQueue = [] ∧ s.console.inClosed = true ∧ s.consolePoll = (.endOfInput, s)) ∨
    (s.console.inQueue = [] ∧ s.console.inClosed = false ∧ s.consolePoll = (.noInput, s)) := by
  unfold State.consolePoll
  cases hq : s.console.inQueue with
  | cons b rest => exact .inl ⟨b, rest, rfl, rfl⟩
  | nil => cases hc : s.console.inClosed <;> simp

/-! ## MemRead -/

/-- A poll writes KBSR, and KBDR with a key, and consumes at most the byte it reports. -/
theorem State.kbsrPoll_cases (s : State) :
    (∃ b rest, s.console.inQueue = b :: rest ∧ s.kbsrPoll =
      ((s.setConsole { s.console with inQueue := rest }).setCell kbsrAddr 0x8000#16).setCell kbdrAddr (zext b)) ∨
    (s.console.inQueue = [] ∧ s.kbsrPoll = s.setCell kbsrAddr 0x0000#16) := by
  unfold State.kbsrPoll
  rcases s.consolePoll_cases with ⟨b, rest, hq, h⟩ | ⟨hq, -, h⟩ | ⟨hq, -, h⟩ <;> rw [h]
  · exact .inl ⟨b, rest, hq, rfl⟩
  · exact .inr ⟨hq, rfl⟩
  · exact .inr ⟨hq, rfl⟩

theorem kbdrAddr_ne_kbsrAddr : kbdrAddr ≠ kbsrAddr := by decide

@[simp] theorem State.kbsrPoll_regs (s : State) : s.kbsrPoll.regs = s.regs := by
  rcases s.kbsrPoll_cases with ⟨b, rest, -, h⟩ | ⟨-, h⟩ <;> simp [h]
@[simp] theorem State.kbsrPoll_pc (s : State) : s.kbsrPoll.pc = s.pc := by
  rcases s.kbsrPoll_cases with ⟨b, rest, -, h⟩ | ⟨-, h⟩ <;> simp [h]
@[simp] theorem State.kbsrPoll_cond (s : State) : s.kbsrPoll.cond = s.cond := by
  rcases s.kbsrPoll_cases with ⟨b, rest, -, h⟩ | ⟨-, h⟩ <;> simp [h]
@[simp] theorem State.kbsrPoll_run (s : State) : s.kbsrPoll.run = s.run := by
  rcases s.kbsrPoll_cases with ⟨b, rest, -, h⟩ | ⟨-, h⟩ <;> simp [h]
@[simp] theorem State.kbsrPoll_host (s : State) : s.kbsrPoll.host = s.host := by
  rcases s.kbsrPoll_cases with ⟨b, rest, -, h⟩ | ⟨-, h⟩ <;> simp [h]
@[simp] theorem State.kbsrPoll_reg (s : State) (r : RegIdx) : s.kbsrPoll.reg r = s.reg r := by
  simp [State.reg]

theorem State.kbsrPoll_cell_of_ne (s : State) {a : Word} (h : a ≠ kbsrAddr) (h' : a ≠ kbdrAddr) :
    s.kbsrPoll.cell a = s.cell a := by
  rcases s.kbsrPoll_cases with ⟨b, rest, -, e⟩ | ⟨-, e⟩ <;> simp [e, State.cell_setCell, h, h']

/-- After a poll KBSR holds 0x8000 if a byte was queued, and 0x0000 otherwise. -/
theorem State.kbsrPoll_kbsr (s : State) :
    s.kbsrPoll.cell kbsrAddr = if s.console.inQueue = [] then 0x0000#16 else 0x8000#16 := by
  rcases s.kbsrPoll_cases with ⟨b, rest, hq, e⟩ | ⟨hq, e⟩ <;>
    simp [e, hq, State.cell_setCell, kbdrAddr_ne_kbsrAddr.symm]

theorem State.kbsrPoll_wf {s : State} (h : s.mem.wf = true) : s.kbsrPoll.mem.wf = true := by
  rcases s.kbsrPoll_cases with ⟨b, rest, -, e⟩ | ⟨-, e⟩ <;> rw [e]
  · exact State.setCell_wf _ _ (State.setCell_wf _ _ h)
  · exact State.setCell_wf _ _ h

/-- A poll emits nothing, leaves the input open or closed, and consumes at most the oldest byte. -/
theorem State.kbsrPoll_console (s : State) :
    s.kbsrPoll.console = { s.console with inQueue := s.console.inQueue.tail } := by
  rcases s.kbsrPoll_cases with ⟨b, rest, hq, e⟩ | ⟨hq, e⟩ <;> simp [e, hq]
  rw [← hq]

@[simp] theorem State.afterRead_kbsr (s : State) : s.afterRead kbsrAddr = s.kbsrPoll := by
  simp [State.afterRead]

theorem State.afterRead_of_ne (s : State) {a : Word} (h : a ≠ kbsrAddr) : s.afterRead a = s := by
  simp [State.afterRead, h]

@[simp] theorem State.memRead_fst (s : State) (a : Word) : (s.memRead a).1 = (s.afterRead a).cell a := rfl
@[simp] theorem State.memRead_snd (s : State) (a : Word) : (s.memRead a).2 = s.afterRead a := rfl

@[simp] theorem State.afterRead_regs (s : State) (a : Word) : (s.afterRead a).regs = s.regs := by
  unfold State.afterRead; split <;> simp
@[simp] theorem State.afterRead_pc (s : State) (a : Word) : (s.afterRead a).pc = s.pc := by
  unfold State.afterRead; split <;> simp
@[simp] theorem State.afterRead_cond (s : State) (a : Word) : (s.afterRead a).cond = s.cond := by
  unfold State.afterRead; split <;> simp
@[simp] theorem State.afterRead_run (s : State) (a : Word) : (s.afterRead a).run = s.run := by
  unfold State.afterRead; split <;> simp
@[simp] theorem State.afterRead_host (s : State) (a : Word) : (s.afterRead a).host = s.host := by
  unfold State.afterRead; split <;> simp
@[simp] theorem State.afterRead_reg (s : State) (a : Word) (r : RegIdx) : (s.afterRead a).reg r = s.reg r := by
  simp [State.reg]

/-- What a read does and gives does not depend on pc. -/
theorem State.memRead_setPc (s : State) (v a : Word) :
    (s.setPc v).memRead a = ((s.memRead a).1, (s.memRead a).2.setPc v) := by
  have hp : (s.setPc v).kbsrPoll = s.kbsrPoll.setPc v := by
    rcases s.kbsrPoll_cases with ⟨b, rest, hq, e⟩ | ⟨hq, e⟩ <;>
      rcases (s.setPc v).kbsrPoll_cases with ⟨b', rest', hq', e'⟩ | ⟨hq', e'⟩ <;>
      rw [State.setPc_console, hq] at hq' <;> cases hq' <;> rw [e, e'] <;> rfl
  unfold State.memRead State.afterRead
  split
  · rw [hp]; rfl
  · rfl

/-- A read leaves every cell but KBSR and KBDR alone, whatever address it reads. -/
theorem State.afterRead_cell_of_ne (s : State) (b : Word) {a : Word} (h : a ≠ kbsrAddr) (h' : a ≠ kbdrAddr) :
    (s.afterRead b).cell a = s.cell a := by
  unfold State.afterRead
  split
  · exact s.kbsrPoll_cell_of_ne h h'
  · rfl

theorem State.afterRead_wf {s : State} (a : Word) (h : s.mem.wf = true) : (s.afterRead a).mem.wf = true := by
  unfold State.afterRead
  split
  · exact State.kbsrPoll_wf h
  · exact h

@[simp] theorem State.afterRead_out (s : State) (a : Word) : (s.afterRead a).console.out = s.console.out := by
  unfold State.afterRead; split <;> simp [State.kbsrPoll_console]

@[simp] theorem State.afterRead_inClosed (s : State) (a : Word) :
    (s.afterRead a).console.inClosed = s.console.inClosed := by
  unfold State.afterRead; split <;> simp [State.kbsrPoll_console]

/-! ## MemWrite -/

@[simp] theorem State.memWrite_regs (s : State) (a v : Word) : (s.memWrite a v).regs = s.regs := by
  unfold State.memWrite; split <;> rfl
@[simp] theorem State.memWrite_pc (s : State) (a v : Word) : (s.memWrite a v).pc = s.pc := by
  unfold State.memWrite; split <;> rfl
@[simp] theorem State.memWrite_cond (s : State) (a v : Word) : (s.memWrite a v).cond = s.cond := by
  unfold State.memWrite; split <;> rfl
@[simp] theorem State.memWrite_run (s : State) (a v : Word) : (s.memWrite a v).run = s.run := by
  unfold State.memWrite; split <;> rfl
@[simp] theorem State.memWrite_host (s : State) (a v : Word) : (s.memWrite a v).host = s.host := by
  unfold State.memWrite; split <;> rfl
@[simp] theorem State.memWrite_reg (s : State) (a v : Word) (r : RegIdx) : (s.memWrite a v).reg r = s.reg r := by
  simp [State.reg]

theorem State.memWrite_mem (s : State) (a v : Word) : (s.memWrite a v).mem = (s.setCell a v).mem := by
  unfold State.memWrite; split <;> rfl

/-- A write stores the word at its address and nowhere else. -/
theorem State.memWrite_cell (s : State) (a v b : Word) :
    (s.memWrite a v).cell b = if b = a then v else s.cell b := by
  rw [← State.cell_setCell, State.cell, State.memWrite_mem]; rfl

/-- A write emits the low byte exactly when it writes DDR. -/
theorem State.memWrite_console (s : State) (a v : Word) : (s.memWrite a v).console =
    if a = ddrAddr then { s.console with out := s.console.out ++ [lowByte v] } else s.console := by
  unfold State.memWrite; split <;> rfl

theorem State.memWrite_wf {s : State} (a v : Word) (h : s.mem.wf = true) : (s.memWrite a v).mem.wf = true := by
  rw [State.memWrite_mem]; exact State.setCell_wf a v h

/-! ## Flags, link and fault entry -/

@[simp] theorem State.updateFlags_eq (s : State) (v : Word) : s.updateFlags v = s.setCond (condOf v) := rfl

/-- What every flag-setting instruction ends with: the register and the flag of its value. -/
@[simp] theorem State.writeDr_eq (s : State) (dr : RegIdx) (v : Word) :
    s.writeDr dr v = (s.setReg dr v).setCond (condOf v) := by
  simp [State.writeDr]

@[simp] theorem State.linkPc_eq (s : State) : s.linkPc = s.setReg linkReg s.pc := rfl
@[simp] theorem State.raise_eq (s : State) (r : FaultRecord) : s.raise r = s.setRun (.faulted r) := rfl
@[simp] theorem State.wait_eq (s : State) (k : WaitKind) : s.wait k = s.setRun (.waiting k) := rfl
@[simp] theorem State.resume_eq (s : State) : s.resume = s.setRun .running := rfl
@[simp] theorem State.pcRelative_eq (s : State) (off : Word) : s.pcRelative off = s.pc + off := rfl
@[simp] theorem State.basePlus_eq (s : State) (b : RegIdx) (off : Word) : s.basePlus b off = s.reg b + off := rfl

/-! ## Fetch -/

/-- Fetch reads the word at pc through MemRead and increments pc. -/
theorem State.fetch_eq (s : State) :
    s.fetch = ((s.memRead s.pc).1, (s.memRead s.pc).2.setPc (s.pc + 1#16)) := by
  simp [State.fetch, State.memRead]

/-- After fetch, the cell of the instruction being executed holds the fetched word. -/
theorem State.instrWord_fetch (s : State) : s.fetch.2.instrWord = s.fetch.1 := by
  simp [State.fetch_eq, State.instrWord, State.instrAddr]

end Sys2Proof.Machine
end

