-- ==== Sys2Proof/Laws/HostPort.lean ====
section
/-! SUPPORT. The host's turn and the image load, field by field. -/

namespace Sys2Proof.Machine

/-! ## The host's turn -/

@[simp] theorem State.hostTurn_regs (s : State) : s.hostTurn.regs = s.regs := by
  unfold State.hostTurn; split <;> rfl
@[simp] theorem State.hostTurn_pc (s : State) : s.hostTurn.pc = s.pc := by
  unfold State.hostTurn; split <;> rfl
@[simp] theorem State.hostTurn_cond (s : State) : s.hostTurn.cond = s.cond := by
  unfold State.hostTurn; split <;> rfl
@[simp] theorem State.hostTurn_mem (s : State) : s.hostTurn.mem = s.mem := by
  unfold State.hostTurn; split <;> rfl
@[simp] theorem State.hostTurn_run (s : State) : s.hostTurn.run = s.run := by
  unfold State.hostTurn; split <;> rfl

@[simp] theorem State.hostTurn_reg (s : State) (r : RegIdx) : s.hostTurn.reg r = s.reg r := by
  simp [State.reg]
@[simp] theorem State.hostTurn_cell (s : State) (a : Word) : s.hostTurn.cell a = s.cell a := by
  simp [State.cell]

/-- A turn is used up, whatever it does. -/
@[simp] theorem State.hostTurn_host (s : State) : s.hostTurn.host = s.host.tail := by
  unfold State.hostTurn; split <;> simp_all

/-- With no turn to come the host makes no move. -/
theorem State.hostTurn_of_nil {s : State} (h : s.host = []) : s.hostTurn = s := by
  simp [State.hostTurn, h]

/-- A turn makes its moves on the Console and is used up. -/
theorem State.hostTurn_of_cons {s : State} {ms : List HostMove} {rest : List (List HostMove)}
    (h : s.host = ms :: rest) :
    s.hostTurn = (s.setConsole (s.console.hostMoves ms)).setHost rest := by
  simp [State.hostTurn, h]

/-- The turn of a schedule of one turn is its moves on the Console. -/
theorem State.hostTurn_setHost_singleton (s : State) (ms : List HostMove) :
    (s.setHost [ms]).hostTurn = (s.setConsole (s.console.hostMoves ms)).setHost [] :=
  State.hostTurn_of_cons rfl

@[simp] theorem Console.hostMoves_nil (c : Console) : c.hostMoves [] = c := rfl
@[simp] theorem Console.hostMoves_cons (c : Console) (m : HostMove) (ms : List HostMove) :
    c.hostMoves (m :: ms) = (c.hostMove m).hostMoves ms := rfl

@[simp] theorem Console.hostMove_out (c : Console) (m : HostMove) : (c.hostMove m).out = c.out := by
  cases m
  · simp only [Console.hostMove]; split_ifs <;> rfl
  · rfl

@[simp] theorem Console.hostMoves_out (c : Console) (ms : List HostMove) : (c.hostMoves ms).out = c.out := by
  induction ms generalizing c with
  | nil => rfl
  | cons m ms ih => simp [ih]

@[simp] theorem State.hostTurn_out (s : State) : s.hostTurn.console.out = s.console.out := by
  unfold State.hostTurn; split <;> simp

/-! ## The image load -/

theorem Memory.copyWords_wf {ws : List Word} {m : Memory} {a : Nat} (h : m.wf = true)
    (hf : a + ws.length ≤ 65536) : (Memory.copyWords m a ws).wf = true := by
  induction ws generalizing m a with
  | nil => exact h
  | cons w ws ih =>
    rw [List.length_cons] at hf
    exact ih (Memory.wf_put w h (by omega)) (by omega)

/-- Every cell of the copied range holds its word, and every other cell is as before. -/
theorem Memory.get_copyWords (ws : List Word) (m : Memory) (a b : Nat) :
    Memory.get (Memory.copyWords m a ws) b =
      if a ≤ b then (ws[b - a]?).getD (Memory.get m b) else Memory.get m b := by
  induction ws generalizing m a with
  | nil => simp [Memory.copyWords]
  | cons w ws ih =>
    rw [Memory.copyWords, ih, Memory.get_put]
    rcases Nat.lt_trichotomy a b with h | h | h
    · rw [if_pos (by omega : a + 1 ≤ b), if_neg (by omega : ¬b = a), if_pos (by omega : a ≤ b)]
      obtain ⟨k, hk⟩ : ∃ k, b - a = k + 1 := ⟨b - a - 1, by omega⟩
      rw [hk, show b - (a + 1) = k by omega, List.getElem?_cons_succ]
    · subst h; simp
    · rw [if_neg (by omega), if_neg (by omega), if_neg (by omega)]

/-- The cells after the load of an image that fits (R211). -/
theorem State.loadImage_cell {s t : State} {im : Image} (h : s.loadImage im = .next t) (a : Word) :
    t.cell a = (im.wordAt a).getD (s.cell a) := by
  unfold State.loadImage at h
  split at h
  · cases h
    simp only [State.cell, State.setMem_mem, Memory.get_copyWords, Image.wordAt]
    split <;> rfl
  · cases h

/-- A load answers a next state exactly for an image that fits, and changes memory only (R211). -/
theorem State.loadImage_next {s t : State} {im : Image} (h : s.loadImage im = .next t) :
    im.fits = true ∧ t = s.setMem (Memory.copyWords s.mem im.origin.toNat im.words) := by
  unfold State.loadImage at h
  split at h
  · cases h; exact ⟨by assumption, rfl⟩
  · cases h

end Sys2Proof.Machine
end

