-- ==== Sys2Proof/Laws/Services.lean ====
section
/-! SUPPORT. The string scans of PUTS and PUTSP: what they keep, and that their fuel is never used up, so
that they are the spec's loops. -/

namespace Sys2Proof.Machine

/-! ## One turn of each loop -/

theorem putsScan_succ (n : Nat) (a : Word) (s : State) : putsScan (n + 1) a s =
    if (s.memRead a).1 = 0x0000#16 then (s.memRead a).2
    else putsScan n (a + 1#16) ((s.memRead a).2.consoleEmit (lowByte (s.memRead a).1)) := rfl

theorem putspScan_succ (n : Nat) (a : Word) (s : State) : putspScan (n + 1) a s =
    if lowByte (s.memRead a).1 = 0x00#8 then (s.memRead a).2
    else if highByte (s.memRead a).1 = 0x00#8 then (s.memRead a).2.consoleEmit (lowByte (s.memRead a).1)
    else putspScan n (a + 1#16)
      (((s.memRead a).2.consoleEmit (lowByte (s.memRead a).1)).consoleEmit (highByte (s.memRead a).1)) := rfl

/-! ## What a scan keeps -/

/-- A scan keeps whatever every read and every emit keeps. -/
theorem putsScan_keeps {P : State → Prop} (hr : ∀ s a, P s → P (s.afterRead a))
    (he : ∀ s b, P s → P (s.consoleEmit b)) (n : Nat) (a : Word) (s : State) (h : P s) : P (putsScan n a s) := by
  induction n generalizing a s with
  | zero => exact h
  | succ n ih =>
    rw [putsScan_succ]
    by_cases hw : (s.memRead a).1 = 0x0000#16
    · rw [if_pos hw]; exact hr s a h
    · rw [if_neg hw]; exact ih _ _ (he _ _ (hr s a h))

/-- A scan keeps whatever every read and every emit keeps. -/
theorem putspScan_keeps {P : State → Prop} (hr : ∀ s a, P s → P (s.afterRead a))
    (he : ∀ s b, P s → P (s.consoleEmit b)) (n : Nat) (a : Word) (s : State) (h : P s) : P (putspScan n a s) := by
  induction n generalizing a s with
  | zero => exact h
  | succ n ih =>
    rw [putspScan_succ]
    by_cases hl : lowByte (s.memRead a).1 = 0x00#8
    · rw [if_pos hl]; exact hr s a h
    · rw [if_neg hl]
      by_cases hh : highByte (s.memRead a).1 = 0x00#8
      · rw [if_pos hh]; exact he _ _ (hr s a h)
      · rw [if_neg hh]; exact ih _ _ (he _ _ (he _ _ (hr s a h)))

/-- What every trap service leaves alone, as one property of the state it starts from. -/
def ScanFrame (s t : State) : Prop :=
  t.regs = s.regs ∧ t.pc = s.pc ∧ t.cond = s.cond ∧ t.run = s.run ∧ t.host = s.host ∧
    CellsSameBut [kbsrAddr, kbdrAddr] s t ∧ t.console.inClosed = s.console.inClosed ∧
    (∃ n, t.console.inQueue = s.console.inQueue.drop n) ∧ (∃ bs, t.console.out = s.console.out ++ bs)

theorem ScanFrame.refl (s : State) : ScanFrame s s :=
  ⟨rfl, rfl, rfl, rfl, rfl, fun _ _ => rfl, rfl, ⟨0, rfl⟩, ⟨[], by simp⟩⟩

theorem ScanFrame.afterRead {s t : State} (a : Word) (h : ScanFrame s t) : ScanFrame s (t.afterRead a) := by
  obtain ⟨h1, h2, h3, h4, h5, h6, h7, ⟨n, h8⟩, h9⟩ := h
  refine ⟨by simpa, by simpa, by simpa, by simpa, by simpa, fun b hb => ?_, by simpa, ?_, by simpa⟩
  · simp only [List.mem_cons, List.not_mem_nil, or_false, not_or] at hb
    rw [State.afterRead_cell_of_ne t a hb.1 hb.2, h6 b (by simpa using hb)]
  · by_cases ha : a = kbsrAddr
    · refine ⟨n + 1, ?_⟩
      subst ha
      rw [State.afterRead_kbsr, State.kbsrPoll_console, ← List.tail_drop, ← h8]
    · exact ⟨n, by rw [State.afterRead_of_ne t ha, h8]⟩

theorem ScanFrame.consoleEmit {s t : State} (b : Byte) (h : ScanFrame s t) : ScanFrame s (t.consoleEmit b) := by
  obtain ⟨h1, h2, h3, h4, h5, h6, h7, h8, ⟨bs, h9⟩⟩ := h
  exact ⟨h1, h2, h3, h4, h5, h6, h7, h8, ⟨bs ++ [b], by simp [h9]⟩⟩

theorem putsScan_frame (n : Nat) (a : Word) (s : State) : ScanFrame s (putsScan n a s) :=
  putsScan_keeps (P := ScanFrame s) (fun _ a h => h.afterRead a) (fun _ b h => h.consoleEmit b) n a s (.refl s)

theorem putspScan_frame (n : Nat) (a : Word) (s : State) : ScanFrame s (putspScan n a s) :=
  putspScan_keeps (P := ScanFrame s) (fun _ a h => h.afterRead a) (fun _ b h => h.consoleEmit b) n a s (.refl s)

/-! ## The fuel is never used up -/

/-- How many reads PUTS needs at most from `a`: up to KBSR, and once around for each queued byte. -/
def putsNeed (a : Word) (s : State) : Nat := s.console.inQueue.length * 65536 + (kbsrAddr - a).toNat + 1

theorem dist_succ {a : Word} (h : a ≠ kbsrAddr) : (kbsrAddr - (a + 1#16)).toNat + 1 = (kbsrAddr - a).toNat := by
  have hk : kbsrAddr = 0xFE00#16 := rfl
  rw [hk] at h ⊢
  bv_omega

theorem dist_kbsr_succ : (kbsrAddr - (kbsrAddr + 1#16)).toNat = 65535 := by decide

/-- After a read of a non-zero word, the loop needs at least one read less. -/
theorem putsNeed_succ {a : Word} {s : State} (hw : (s.memRead a).1 ≠ 0#16) (b : Byte) :
    putsNeed (a + 1#16) ((s.memRead a).2.consoleEmit b) < putsNeed a s := by
  unfold putsNeed
  rw [State.consoleEmit_console, State.memRead_snd]
  by_cases ha : a = kbsrAddr
  · subst ha
    rw [State.memRead_fst, State.afterRead_kbsr, State.kbsrPoll_kbsr] at hw
    rw [State.afterRead_kbsr, State.kbsrPoll_console, dist_kbsr_succ]
    cases hq : s.console.inQueue with
    | nil => exact absurd (if_pos hq) hw
    | cons c rest =>
      simp only [List.tail_cons, List.length_cons]
      omega
  · rw [State.afterRead_of_ne s ha]
    have := dist_succ ha
    simp only
    omega

/-- PUTS with enough fuel is the spec's loop, run to its end (R155). -/
theorem putsRun_putsScan (n : Nat) (a : Word) (s : State) (h : putsNeed a s ≤ n) :
    PutsRun a s (putsScan n a s) := by
  induction n generalizing a s with
  | zero => exact absurd h (by unfold putsNeed; omega)
  | succ n ih =>
    rw [putsScan_succ]
    split
    · rename_i hw; exact .stop hw
    · rename_i hw
      exact .more hw (ih _ _ (Nat.le_of_lt_succ (Nat.lt_of_lt_of_le (putsNeed_succ hw _) h)))

theorem putsNeed_le_putsBound (a : Word) (s : State) : putsNeed a s ≤ putsBound s := by
  have := (kbsrAddr - a).isLt
  unfold putsNeed putsBound
  omega

/-- PUTSP with enough fuel is the spec's loop, run to its end (R158): KBSR always stops it. -/
theorem putspRun_putspScan (n : Nat) (a : Word) (s : State) (h : (kbsrAddr - a).toNat < n) :
    PutspRun a s (putspScan n a s) := by
  induction n generalizing a s with
  | zero => omega
  | succ n ih =>
    rw [putspScan_succ]
    split
    · rename_i hl; exact .stopLow hl
    · rename_i hl
      split
      · rename_i hh; exact .stopHigh hl hh
      · rename_i hh
        refine .more hl hh (ih _ _ ?_)
        by_cases ha : a = kbsrAddr
        · subst ha
          refine absurd ?_ hl
          rw [State.memRead_fst, State.afterRead_kbsr, State.kbsrPoll_kbsr]
          split <;> rfl
        · have := dist_succ ha
          omega

theorem dist_lt_putspBound (a : Word) : (kbsrAddr - a).toNat < putspBound := by
  have := (kbsrAddr - a).isLt
  unfold putspBound
  omega

end Sys2Proof.Machine
end

