-- ==== Sys2Proof/Laws/Exec.lean ====
section
/-! SUPPORT. What an instruction and a step can do, said once: every instruction completes, and a step is one
of the cases of the run state. -/

namespace Sys2Proof.Machine

/-- Every instruction answers a next state, in every state. -/
theorem exec_completes (i : Instr) (s : State) : ∃ t, exec i s = .next t := by
  cases i <;> exact ⟨_, rfl⟩

/-! ## Each meaning as an equation over the shared operations -/

theorem exec_ld (dr : RegIdx) (off9 : Word) (s : State) :
    exec (.ld dr off9) s = .next ((s.afterRead (s.pc + off9)).writeDr dr (s.memRead (s.pc + off9)).1) := rfl

theorem exec_ldr (dr baseR : RegIdx) (off6 : Word) (s : State) : exec (.ldr dr baseR off6) s =
    .next ((s.afterRead (s.reg baseR + off6)).writeDr dr (s.memRead (s.reg baseR + off6)).1) := rfl

theorem exec_ldi (dr : RegIdx) (off9 : Word) (s : State) : exec (.ldi dr off9) s =
    .next (((s.memRead (s.pc + off9)).2.afterRead (s.memRead (s.pc + off9)).1).writeDr dr
      ((s.memRead (s.pc + off9)).2.memRead (s.memRead (s.pc + off9)).1).1) := rfl

theorem exec_sti (sr : RegIdx) (off9 : Word) (s : State) : exec (.sti sr off9) s =
    .next ((s.afterRead (s.pc + off9)).memWrite (s.memRead (s.pc + off9)).1 (s.reg sr)) := by
  have : (s.afterRead (s.pc + off9)).reg sr = s.reg sr := by simp
  rw [← this]; rfl

/-! ## What an instruction can do -/

/-- Everything an instruction can do, said once: a property holds after it if the property is kept by the
register writes, the pc and flag writes and the stores that the tables grant the instruction, and by reads,
emits and changes of the run state. -/
theorem exec_keeps {P : State → Prop} {i : Instr} {s t : State} (h : exec i s = .next t)
    (hreg : ∀ u, ∀ r ∈ regsWritten i, ∀ v, P u → P (u.setReg r v))
    (hpc : writesPc i = true → ∀ u v, P u → P (u.setPc v))
    (hcond : flagSetting i = true → ∀ u c, P u → P (u.setCond c))
    (hwrite : storing i = true → ∀ u a v, P u → P (u.memWrite a v))
    (hread : ∀ u a, P u → P (u.afterRead a)) (hemit : ∀ u b, P u → P (u.consoleEmit b))
    (hrun : ∀ u r, P u → P (u.setRun r)) (hs : P s) : P t := by
  have emitAll : ∀ (bs : List Byte) u, P u → P (u.consoleEmitAll bs) := fun bs => by
    induction bs with
    | nil => exact fun u hu => hu
    | cons b bs ih => exact fun u hu => ih _ (hemit u b hu)
  have serve : ∀ (k : Service) u, P u → P (u.runService k) := fun k u hu => by
    cases k
    · exact hrun _ _ hu
    · exact hemit _ _ hu
    · exact putsScan_keeps hread hemit _ _ u hu
    · exact hrun _ _ (emitAll _ _ hu)
    · exact putspScan_keeps hread hemit _ _ u hu
    · exact hrun _ _ hu
  cases i <;> try rw [exec_sti] at h
  case br => cases h; split <;> [exact hpc rfl _ _ hs; exact hs]
  case addReg => cases h; exact hcond rfl _ _ (hreg _ _ (List.mem_singleton.mpr rfl) _ hs)
  case addImm => cases h; exact hcond rfl _ _ (hreg _ _ (List.mem_singleton.mpr rfl) _ hs)
  case ld => cases h; exact hcond rfl _ _ (hreg _ _ (List.mem_singleton.mpr rfl) _ (hread _ _ hs))
  case st => cases h; exact hwrite rfl _ _ _ hs
  case jsr => cases h; exact hpc rfl _ _ (hreg _ _ (List.mem_singleton.mpr rfl) _ hs)
  case jsrr => cases h; exact hpc rfl _ _ (hreg _ _ (List.mem_singleton.mpr rfl) _ hs)
  case andReg => cases h; exact hcond rfl _ _ (hreg _ _ (List.mem_singleton.mpr rfl) _ hs)
  case andImm => cases h; exact hcond rfl _ _ (hreg _ _ (List.mem_singleton.mpr rfl) _ hs)
  case ldr => cases h; exact hcond rfl _ _ (hreg _ _ (List.mem_singleton.mpr rfl) _ (hread _ _ hs))
  case str => cases h; exact hwrite rfl _ _ _ hs
  case rti => cases h; exact hrun _ _ hs
  case not => cases h; exact hcond rfl _ _ (hreg _ _ (List.mem_singleton.mpr rfl) _ hs)
  case ldi => cases h; exact hcond rfl _ _ (hreg _ _ (List.mem_singleton.mpr rfl) _ (hread _ _ (hread _ _ hs)))
  case sti => cases h; exact hwrite rfl _ _ _ (hread _ _ hs)
  case jmp => cases h; exact hpc rfl _ _ hs
  case res => cases h; exact hrun _ _ hs
  case lea => cases h; exact hcond rfl _ _ (hreg _ _ (List.mem_singleton.mpr rfl) _ hs)
  case ret => cases h; exact hpc rfl _ _ hs
  case trap v =>
    cases h
    have hl := hreg s linkReg (List.mem_singleton.mpr rfl) s.pc hs
    unfold State.trapDispatch
    split <;> [exact serve _ _ hl; exact hrun _ _ hl]
  case trapGetc => cases h; exact serve .getc _ (hreg _ _ (List.mem_singleton.mpr rfl) _ hs)
  case trapOut => cases h; exact serve .out _ (hreg _ _ (List.mem_singleton.mpr rfl) _ hs)
  case trapPuts => cases h; exact serve .puts _ (hreg _ _ (List.mem_singleton.mpr rfl) _ hs)
  case trapIn => cases h; exact serve .inChar _ (hreg _ _ (List.mem_singleton.mpr rfl) _ hs)
  case trapPutsp => cases h; exact serve .putsp _ (hreg _ _ (List.mem_singleton.mpr rfl) _ hs)
  case trapHalt => cases h; exact serve .halt _ (hreg _ _ (List.mem_singleton.mpr rfl) _ hs)

/-! ## What a step can do -/

/-- A step from RUNNING, with what the fetch reads and leaves. -/
theorem step_running {s : State} (h : s.run = .running) :
    step s = exec (decode (s.hostTurn.memRead s.pc).1) ((s.hostTurn.memRead s.pc).2.setPc (s.pc + 1#16)) := by
  simp only [step, h, State.stepRunning, State.fetch_eq, State.hostTurn_pc]

/-- A step from RUNNING away from KBSR runs the word of the cell at pc, whatever the host does before it. -/
theorem step_running_of_ne {s : State} (h : s.run = .running) (hp : s.pc ≠ kbsrAddr) :
    step s = exec (decode (s.cell s.pc)) (s.hostTurn.setPc (s.pc + 1#16)) := by
  rw [step_running h, State.memRead_fst, State.memRead_snd, State.afterRead_of_ne _ hp, State.hostTurn_cell]

/-- A step from WAITING with input there after the host's turn is the completion, in the state after that turn. -/
theorem step_waiting {s : State} {k : WaitKind} (h : s.run = .waiting k) (hi : s.hostTurn.inputReady = true) :
    step s = .next (s.hostTurn.completeWait k) := by
  simp only [step, h, State.stepWaiting, hi, ↓reduceIte]

/-- A step answers a next state in one of three ways: it executes an instruction, completes a wait, or lets
the host move while the CORE is held. -/
theorem step_cases {s t : State} (h : step s = .next t) :
    (s.run = .running ∧ ∃ w, exec (decode w) ((s.hostTurn.afterRead s.pc).setPc (s.pc + 1#16)) = .next t ∧
      w = (s.hostTurn.afterRead s.pc).cell s.pc) ∨
    (∃ k, s.run = .waiting k ∧ s.hostTurn.inputReady = true ∧ t = s.hostTurn.completeWait k) ∨
    (∃ k, s.run = .waiting k ∧ s.hostTurn.inputReady = false ∧ s.host ≠ [] ∧ t = s.hostTurn) := by
  cases hr : s.run with
  | running => rw [step_running hr] at h; exact .inl ⟨rfl, _, h, rfl⟩
  | waiting k =>
    simp only [step, hr, State.stepWaiting] at h
    split at h
    · cases h; exact .inr (.inl ⟨k, rfl, by assumption, rfl⟩)
    · split at h
      · cases h
      · rename_i h1 h2
        cases h
        exact .inr (.inr ⟨k, rfl, by simpa using h1, by simpa using h2, rfl⟩)
  | halted => simp [step, hr] at h
  | faulted r => simp [step, hr] at h

/-- A step is never refused, and it faults only where the CORE has no step. -/
theorem step_not_next {s : State} (h : ∀ t, step s ≠ .next t) :
    (s.run = .halted ∧ step s = .fault .halted) ∨ (∃ r, s.run = .faulted r ∧ step s = .fault (.faulted r)) ∨
    (∃ k, s.run = .waiting k ∧ step s = .fault (.held k)) := by
  cases hr : s.run with
  | running =>
    obtain ⟨t, ht⟩ := exec_completes (decode (s.hostTurn.memRead s.pc).1)
      ((s.hostTurn.memRead s.pc).2.setPc (s.pc + 1#16))
    exact absurd (step_running hr ▸ ht) (h t)
  | waiting k =>
    refine .inr (.inr ⟨k, rfl, ?_⟩)
    simp only [step, hr, State.stepWaiting] at h ⊢
    split <;> rename_i h1
    · exact absurd (by rw [if_pos h1]) (h _)
    · split <;> rename_i h2
      · rfl
      · exact absurd (by rw [if_neg h1, if_neg h2]) (h _)
  | halted => exact .inl ⟨rfl, by simp [step, hr]⟩
  | faulted r => exact .inr (.inl ⟨r, rfl, by simp [step, hr]⟩)

/-- What the completion of a wait does (R153, R157). -/
theorem completeWait_cases (s : State) (k : WaitKind) :
    (∃ b rest, s.console.inQueue = b :: rest ∧ s.completeWait k =
      ((s.setConsole { s.console with
          inQueue := rest,
          out := s.console.out ++ (if k = .inChar then [b] else []) }).setReg 0#3 (zext b)).setRun .running) ∨
    (s.console.inQueue = [] ∧ s.console.inClosed = true ∧
      s.completeWait k = (s.setReg 0#3 eofChar).setRun .running) ∨
    (s.console.inQueue = [] ∧ s.console.inClosed = false ∧ s.completeWait k = s) := by
  cases k <;> simp only [State.completeWait, State.getcComplete, State.inComplete] <;>
    rcases s.consolePoll_cases with ⟨b, rest, hq, h⟩ | ⟨hq, hc, h⟩ | ⟨hq, hc, h⟩ <;> rw [h]
  · exact .inl ⟨b, rest, hq, by simp⟩
  · exact .inr (.inl ⟨hq, hc, rfl⟩)
  · exact .inr (.inr ⟨hq, hc, rfl⟩)
  · exact .inl ⟨b, rest, hq, rfl⟩
  · exact .inr (.inl ⟨hq, hc, rfl⟩)
  · exact .inr (.inr ⟨hq, hc, rfl⟩)

end Sys2Proof.Machine
end

