-- ==== Sys2Proof/Laws/PerInstr.lean ====
section
/-! SUPPORT. The family RoundTrip: decoding an encoded well-formed instruction gives it back, one lemma for
each constructor of Instr. -/

namespace Sys2Proof.Laws.RoundTrip

/-- Decoding the word of a well-formed instruction gives it back. -/
def Statement (i : Instr) : Prop := wellFormed i = true → decode (encode i) = i

theorem br (nzp : BitVec 3) (off9 : Word) : Statement (.br nzp off9) := fun h => by
  obtain ⟨h1, h2, h3⟩ := encodePc9_fields .br nzp off9
  simp only [decode, encode, h1, h2, h3, opcodeOf_opcodeBits, fitsSigned_iff.mp h]

theorem addReg (dr sr1 sr2 : RegIdx) : Statement (.addReg dr sr1 sr2) := fun _ => by
  obtain ⟨h1, h2, h3, h4, h5⟩ := encodeOpr_fields .add dr sr1 sr2
  simp only [decode, encode, h1, h2, h3, h4, h5, opcodeOf_opcodeBits, Bool.false_eq_true, ↓reduceIte]

theorem addImm (dr sr1 : RegIdx) (imm5 : Word) : Statement (.addImm dr sr1 imm5) := fun h => by
  obtain ⟨h1, h2, h3, h4, h5⟩ := encodeOpi_fields .add dr sr1 imm5
  simp only [decode, encode, h1, h2, h3, h4, h5, opcodeOf_opcodeBits, fitsSigned_iff.mp h, ↓reduceIte]

theorem ld (dr : RegIdx) (off9 : Word) : Statement (.ld dr off9) := fun h => by
  obtain ⟨h1, h2, h3⟩ := encodePc9_fields .ld dr off9
  simp only [decode, encode, h1, h2, h3, opcodeOf_opcodeBits, fitsSigned_iff.mp h]

theorem st (sr : RegIdx) (off9 : Word) : Statement (.st sr off9) := fun h => by
  obtain ⟨h1, h2, h3⟩ := encodePc9_fields .st sr off9
  simp only [decode, encode, h1, h2, h3, opcodeOf_opcodeBits, fitsSigned_iff.mp h]

theorem jsr (off11 : Word) : Statement (.jsr off11) := fun h => by
  obtain ⟨h1, h2, h3⟩ := encodeJsr_fields off11
  simp only [decode, h1, h2, h3, opcodeOf_opcodeBits, fitsSigned_iff.mp h, ↓reduceIte]

theorem jsrr (baseR : RegIdx) : Statement (.jsrr baseR) := fun _ => by
  obtain ⟨h1, h2, h3⟩ := encodeBase_fields .jsr baseR
  simp only [decode, encode, h1, h2, h3, opcodeOf_opcodeBits, Bool.false_eq_true, ↓reduceIte]

theorem andReg (dr sr1 sr2 : RegIdx) : Statement (.andReg dr sr1 sr2) := fun _ => by
  obtain ⟨h1, h2, h3, h4, h5⟩ := encodeOpr_fields .and dr sr1 sr2
  simp only [decode, encode, h1, h2, h3, h4, h5, opcodeOf_opcodeBits, Bool.false_eq_true, ↓reduceIte]

theorem andImm (dr sr1 : RegIdx) (imm5 : Word) : Statement (.andImm dr sr1 imm5) := fun h => by
  obtain ⟨h1, h2, h3, h4, h5⟩ := encodeOpi_fields .and dr sr1 imm5
  simp only [decode, encode, h1, h2, h3, h4, h5, opcodeOf_opcodeBits, fitsSigned_iff.mp h, ↓reduceIte]

theorem ldr (dr baseR : RegIdx) (off6 : Word) : Statement (.ldr dr baseR off6) := fun h => by
  obtain ⟨h1, h2, h3, h4⟩ := encodeBase6_fields .ldr dr baseR off6
  simp only [decode, encode, h1, h2, h3, h4, opcodeOf_opcodeBits, fitsSigned_iff.mp h]

theorem str (sr baseR : RegIdx) (off6 : Word) : Statement (.str sr baseR off6) := fun h => by
  obtain ⟨h1, h2, h3, h4⟩ := encodeBase6_fields .str sr baseR off6
  simp only [decode, encode, h1, h2, h3, h4, opcodeOf_opcodeBits, fitsSigned_iff.mp h]

theorem rti (word : Word) : Statement (.rti word) := fun h => by
  have h1 : bitField word 12 4 = opcodeBits .rti := by simpa [wellFormed, hasOpcode] using h
  simp only [decode, encode, h1, opcodeOf_opcodeBits]

theorem not (dr sr : RegIdx) : Statement (.not dr sr) := fun _ => by
  obtain ⟨h1, h2, h3⟩ := encodeNot_fields dr sr
  simp only [decode, h1, h2, h3, opcodeOf_opcodeBits]

theorem ldi (dr : RegIdx) (off9 : Word) : Statement (.ldi dr off9) := fun h => by
  obtain ⟨h1, h2, h3⟩ := encodePc9_fields .ldi dr off9
  simp only [decode, encode, h1, h2, h3, opcodeOf_opcodeBits, fitsSigned_iff.mp h]

theorem sti (sr : RegIdx) (off9 : Word) : Statement (.sti sr off9) := fun h => by
  obtain ⟨h1, h2, h3⟩ := encodePc9_fields .sti sr off9
  simp only [decode, encode, h1, h2, h3, opcodeOf_opcodeBits, fitsSigned_iff.mp h]

theorem jmp (baseR : RegIdx) : Statement (.jmp baseR) := fun h => by
  obtain ⟨h1, h2, -⟩ := encodeBase_fields .jmp baseR
  have hb : baseR ≠ linkReg := by simpa [wellFormed] using h
  simp only [decode, encode, h1, h2, opcodeOf_opcodeBits, decodeJump, hb, ↓reduceIte]

theorem res (word : Word) : Statement (.res word) := fun h => by
  have h1 : bitField word 12 4 = opcodeBits .res := by simpa [wellFormed, hasOpcode] using h
  simp only [decode, encode, h1, opcodeOf_opcodeBits]

theorem lea (dr : RegIdx) (off9 : Word) : Statement (.lea dr off9) := fun h => by
  obtain ⟨h1, h2, h3⟩ := encodePc9_fields .lea dr off9
  simp only [decode, encode, h1, h2, h3, opcodeOf_opcodeBits, fitsSigned_iff.mp h]

theorem trap (vect8 : Byte) : Statement (.trap vect8) := fun h => by
  obtain ⟨h1, h2⟩ := encodeTrap_fields vect8
  have hv : serviceOf vect8 = none := Option.isNone_iff_eq_none.mp h
  simp only [decode, encode, h1, h2, opcodeOf_opcodeBits, decodeTrap, hv]

theorem ret : Statement .ret := fun _ => by decide

/-- The six service words, by the trap table. -/
theorem service (k : Service) : decode (encodeTrap (vectorOf k)) = serviceInstr k := by
  obtain ⟨h1, h2⟩ := encodeTrap_fields (vectorOf k)
  simp only [decode, h1, h2, opcodeOf_opcodeBits, decodeTrap_vectorOf]

theorem trapGetc : Statement .trapGetc := fun _ => service .getc
theorem trapOut : Statement .trapOut := fun _ => service .out
theorem trapPuts : Statement .trapPuts := fun _ => service .puts
theorem trapIn : Statement .trapIn := fun _ => service .inChar
theorem trapPutsp : Statement .trapPutsp := fun _ => service .putsp
theorem trapHalt : Statement .trapHalt := fun _ => service .halt

end Sys2Proof.Laws.RoundTrip
end

