-- ==== Sys2Proof/Laws/Run.lean ====
section
/-! SUPPORT. Runs of the machine, under the schedule that the state carries and under an unending one: one more
step at the front or at the end, and a run is determined by its start and its length. -/

namespace Sys2Proof.Machine

/-- A run of one more step, over any machine of the host's interface. -/
theorem core_run_succ (M : Host.Core) (n : Nat) (s u : M.State) :
    M.run (n + 1) s = .next u ↔ ∃ t, M.step s = .next t ∧ M.run n t = .next u := by
  simp only [Host.Core.run]
  cases M.step s <;> simp

theorem reaches_zero (s : State) : Reaches 0 s s := rfl

/-- A run of `n + 1` steps is a step and a run of `n`. -/
theorem reaches_succ {n : Nat} {s u : State} : Reaches (n + 1) s u ↔ ∃ t, step s = .next t ∧ Reaches n t u :=
  core_run_succ Sys2Proof.core n s u

/-- A run of `n + 1` steps is a run of `n` and a step. -/
theorem reaches_succ_last {n : Nat} {s u : State} :
    Reaches (n + 1) s u ↔ ∃ t, Reaches n s t ∧ step t = .next u := by
  induction n generalizing s with
  | zero =>
    rw [reaches_succ]
    constructor
    · rintro ⟨t, h, h'⟩; cases h'; exact ⟨s, rfl, h⟩
    · rintro ⟨t, h, h'⟩; cases h; exact ⟨u, h', rfl⟩
  | succ n ih =>
    rw [reaches_succ]
    constructor
    · rintro ⟨t, h, h'⟩
      obtain ⟨v, h1, h2⟩ := ih.mp h'
      exact ⟨v, reaches_succ.mpr ⟨t, h, h1⟩, h2⟩
    · rintro ⟨v, h1, h2⟩
      obtain ⟨t, h, h'⟩ := reaches_succ.mp h1
      exact ⟨t, h, ih.mpr ⟨v, h', h2⟩⟩

/-- A run's end is determined by its start and its length. -/
theorem reaches_unique {n : Nat} {s t t' : State} (h : Reaches n s t) (h' : Reaches n s t') : t = t' := by
  unfold Reaches at h h'
  rw [h] at h'
  cases h'
  rfl

/-- A run that has come to a state without a step goes no further. -/
theorem reaches_le_of_stuck {n m : Nat} {s t u : State} (h : Reaches n s t) (hs : ∀ v, step t ≠ .next v)
    (h' : Reaches m s u) : m ≤ n := by
  by_contra hlt
  obtain ⟨k, rfl⟩ : ∃ k, m = n + 1 + k := ⟨m - n - 1, by omega⟩
  induction k generalizing u with
  | zero =>
    obtain ⟨v, h1, h2⟩ := reaches_succ_last.mp h'
    rw [reaches_unique h1 h] at h2
    exact hs _ h2
  | succ k ih =>
    obtain ⟨v, h1, -⟩ := reaches_succ_last.mp h'
    exact ih h1 (by omega)

/-! ## Runs under an unending schedule -/

theorem reachesUnder_zero (σ : Schedule) (s : State) : ReachesUnder σ 0 s s := rfl

/-- A run of `n + 1` steps is a run of `n` and a step under turn `n`. -/
theorem reachesUnder_succ {σ : Schedule} {n : Nat} {s t : State} :
    ReachesUnder σ (n + 1) s t ↔ ∃ u, ReachesUnder σ n s u ∧ stepUnder (σ n) u = .next t := Iff.rfl

/-- A run's end is determined by its start, its schedule and its length. -/
theorem reachesUnder_unique {σ : Schedule} {n : Nat} {s t t' : State} (h : ReachesUnder σ n s t)
    (h' : ReachesUnder σ n s t') : t = t' := by
  induction n generalizing t t' with
  | zero => exact h.trans h'.symm
  | succ n ih =>
    obtain ⟨u, h1, h2⟩ := h
    obtain ⟨u', h1', h2'⟩ := h'
    rw [ih h1 h1', h2'] at h2
    cases h2
    rfl

/-- A run passes through a state at every smaller number of steps. -/
theorem reachesUnder_of_le {σ : Schedule} {n m : Nat} {s t : State} (h : ReachesUnder σ m s t) (hle : n ≤ m) :
    ∃ u, ReachesUnder σ n s u := by
  induction m generalizing t with
  | zero => exact ⟨t, Nat.le_zero.mp hle ▸ h⟩
  | succ m ih =>
    rcases Nat.lt_or_eq_of_le hle with hlt | rfl
    · obtain ⟨u, h1, -⟩ := h
      exact ih h1 (by omega)
    · exact ⟨t, h⟩

/-- Under any turn, the CORE has a step in RUNNING and in WAITING, and none in HALTED and FAULTED: a held CORE lets
the host make its move. -/
theorem stepUnder_cases (ms : List HostMove) (s : State) :
    (s.run = .running ∧ ∃ t, stepUnder ms s = .next t) ∨
    (∃ k, s.run = .waiting k ∧ (s.setHost [ms]).hostTurn.inputReady = true ∧
      stepUnder ms s = .next ((s.setHost [ms]).hostTurn.completeWait k)) ∨
    (∃ k, s.run = .waiting k ∧ (s.setHost [ms]).hostTurn.inputReady = false ∧
      stepUnder ms s = .next (s.setHost [ms]).hostTurn) ∨
    (s.run = .halted ∧ stepUnder ms s = .fault .halted) ∨
    (∃ r, s.run = .faulted r ∧ stepUnder ms s = .fault (.faulted r)) := by
  cases hr : s.run with
  | running =>
    refine .inl ⟨rfl, ?_⟩
    rw [stepUnder, step_running (s := s.setHost [ms]) hr]
    exact exec_completes _ _
  | waiting k =>
    cases hi : (s.setHost [ms]).hostTurn.inputReady with
    | true => exact .inr (.inl ⟨k, rfl, rfl, step_waiting (s := s.setHost [ms]) hr hi⟩)
    | false => exact .inr (.inr (.inl ⟨k, rfl, rfl, by simp [stepUnder, step, hr, State.stepWaiting, hi]⟩))
  | halted => exact .inr (.inr (.inr (.inl ⟨rfl, by simp [stepUnder, step, hr]⟩)))
  | faulted r => exact .inr (.inr (.inr (.inr ⟨r, rfl, by simp [stepUnder, step, hr]⟩)))

/-- A step from RUNNING away from KBSR, under any turn, runs the word of the cell at pc. -/
theorem stepUnder_running_of_ne {ms : List HostMove} {s : State} (h : s.run = .running) (hp : s.pc ≠ kbsrAddr) :
    stepUnder ms s =
      exec (decode (s.cell s.pc)) (((s.setConsole (s.console.hostMoves ms)).setHost []).setPc (s.pc + 1#16)) := by
  rw [← State.hostTurn_setHost_singleton]
  exact step_running_of_ne (s := s.setHost [ms]) h hp

end Sys2Proof.Machine
end

