-- ==== Sys2Proof/Tests/Slice0.lean ====
section
/-! SUPPORT. The model's own tests. Expected results come from spec/95_test_vectors.md (vectors S, O, C, L, T,
F, M) or are written out by hand from the formats of 30_encoding.md R73; after them, for every obligation with
hypotheses, a witness that meets them. -/

namespace Sys2Proof.Tests

open Sys2Proof Sys2Proof.Machine

/-! ## Decoding: one word per constructor, written bit by bit from R73 and the opcode table -/

theorem test_decode_br : decode 0b0000101000000101#16 = .br 0b101#3 0x0005#16 := by decide
theorem test_decode_br_negative : decode 0b0000111111111111#16 = .br 0b111#3 0xFFFF#16 := by decide
theorem test_decode_addReg : decode 0b0001000001000010#16 = .addReg 0#3 1#3 2#3 := by decide
theorem test_decode_addReg_ignored : decode 0b0001000001011010#16 = .addReg 0#3 1#3 2#3 := by decide
theorem test_decode_addImm : decode 0b0001000001100011#16 = .addImm 0#3 1#3 0x0003#16 := by decide
theorem test_decode_addImm_negative : decode 0b0001101110110000#16 = .addImm 5#3 6#3 0xFFF0#16 := by decide
theorem test_decode_ld : decode 0b0010010000000010#16 = .ld 2#3 0x0002#16 := by decide
theorem test_decode_st : decode 0b0011000111111110#16 = .st 0#3 0xFFFE#16 := by decide
theorem test_decode_jsr : decode 0b0100110000000000#16 = .jsr 0xFC00#16 := by decide
theorem test_decode_jsrr : decode 0b0100011011111111#16 = .jsrr 3#3 := by decide
theorem test_decode_andReg : decode 0b0101000001000010#16 = .andReg 0#3 1#3 2#3 := by decide
theorem test_decode_andImm : decode 0b0101000001110000#16 = .andImm 0#3 1#3 0xFFF0#16 := by decide
theorem test_decode_ldr : decode 0b0110001010111111#16 = .ldr 1#3 2#3 0xFFFF#16 := by decide
theorem test_decode_str : decode 0b0111100101000110#16 = .str 4#3 5#3 0x0006#16 := by decide
theorem test_decode_rti : decode 0b1000000000000000#16 = .rti 0x8000#16 := by decide
theorem test_decode_not : decode 0b1001001010111111#16 = .not 1#3 2#3 := by decide
theorem test_decode_not_ignored : decode 0b1001000000000000#16 = .not 0#3 0#3 := by decide
theorem test_decode_ldi : decode 0b1010000000000001#16 = .ldi 0#3 0x0001#16 := by decide
theorem test_decode_sti : decode 0b1011001100000000#16 = .sti 1#3 0xFF00#16 := by decide
theorem test_decode_jmp : decode 0b1100000010000000#16 = .jmp 2#3 := by decide
theorem test_decode_ret : decode 0b1100000111000000#16 = .ret := by decide
theorem test_decode_ret_ignored : decode 0b1100111111111111#16 = .ret := by decide
theorem test_decode_res : decode 0b1101000100100011#16 = .res 0xD123#16 := by decide
theorem test_decode_lea : decode 0b1110000111111110#16 = .lea 0#3 0xFFFE#16 := by decide
theorem test_decode_trap : decode 0b1111000000100110#16 = .trap 0x26#8 := by decide
theorem test_decode_getc : decode 0b1111000000100000#16 = .trapGetc := by decide
theorem test_decode_out : decode 0b1111000000100001#16 = .trapOut := by decide
theorem test_decode_puts : decode 0b1111000000100010#16 = .trapPuts := by decide
theorem test_decode_in : decode 0b1111000000100011#16 = .trapIn := by decide
theorem test_decode_putsp : decode 0b1111000000100100#16 = .trapPutsp := by decide
theorem test_decode_halt : decode 0b1111000000100101#16 = .trapHalt := by decide
theorem test_decode_halt_ignored : decode 0b1111111100100101#16 = .trapHalt := by decide

theorem test_table_word : decodeTableWord 16 0x1063 = some (.addImm 0#3 1#3 0x0003#16) := by decide
theorem test_table_word_too_long : decodeTableWord 32 0x1063 = none := by decide

/-! ## Sign extension (95_test_vectors.md section 2.1) -/

theorem test_sext_5 : sext 0x1F#5 = 0xFFFF#16 ∧ sext 0x0F#5 = 0x000F#16 ∧ sext 0x10#5 = 0xFFF0#16 := by decide
theorem test_sext_6 : sext 0x20#6 = 0xFFE0#16 ∧ sext 0x1F#6 = 0x001F#16 := by decide
theorem test_sext_9 : sext 0x100#9 = 0xFF00#16 ∧ sext 0x0FF#9 = 0x00FF#16 := by decide
theorem test_sext_11 : sext 0x400#11 = 0xFC00#16 ∧ sext 0x3FF#11 = 0x03FF#16 := by decide

/-! ## WellFormed refuses what no word encodes, one term for each check -/

theorem test_refuses_br_offset : wellFormed (.br 7#3 0x0100#16) = false := by decide
theorem test_refuses_add_immediate : wellFormed (.addImm 0#3 1#3 0x0010#16) = false := by decide
theorem test_refuses_and_immediate : wellFormed (.andImm 0#3 1#3 0xFFEF#16) = false := by decide
theorem test_refuses_ld_offset : wellFormed (.ld 0#3 0x0100#16) = false := by decide
theorem test_refuses_st_offset : wellFormed (.st 0#3 0xFEFF#16) = false := by decide
theorem test_refuses_jsr_offset : wellFormed (.jsr 0x0400#16) = false := by decide
theorem test_refuses_ldr_offset : wellFormed (.ldr 0#3 1#3 0x0020#16) = false := by decide
theorem test_refuses_str_offset : wellFormed (.str 0#3 1#3 0xFFDF#16) = false := by decide
theorem test_refuses_ldi_offset : wellFormed (.ldi 0#3 0x8000#16) = false := by decide
theorem test_refuses_sti_offset : wellFormed (.sti 0#3 0x0100#16) = false := by decide
theorem test_refuses_lea_offset : wellFormed (.lea 0#3 0x0100#16) = false := by decide
theorem test_refuses_rti_of_another_opcode : wellFormed (.rti 0xD000#16) = false := by decide
theorem test_refuses_res_of_another_opcode : wellFormed (.res 0x8000#16) = false := by decide
theorem test_refuses_jmp_r7 : wellFormed (.jmp 7#3) = false := by decide
theorem test_refuses_trap_of_a_service : wellFormed (.trap 0x25#8) = false := by decide

/-! ## One step of each instruction -/

/-- The reset state with some registers, cells, input bytes and a condition set, pc where it is asked for, and
the word to run placed there. -/
def before (pc : Word) (w : Word) (regs : List (RegIdx × Word)) (cells : List (Word × Word)) (inq : List Byte)
    (closed : Bool) (c : Cond) : State :=
  let s₀ := regs.foldl (fun s p => s.setReg p.1 p.2) State.reset
  let s₁ := cells.foldl (fun s p => s.setCell p.1 p.2) s₀
  let s₂ := s₁.setConsole { inQueue := inq, inClosed := closed, out := [] }
  ((s₂.setCond c).setPc pc).withFetchWord 16 w.toNat

/-- `before` at 0x3000 with input closed and COND Z. -/
def at3000 (w : Word) (regs : List (RegIdx × Word)) (cells : List (Word × Word)) : State :=
  before 0x3000#16 w regs cells [] true .z

/-- What a look at the next state shows, if there is one. -/
def shows {α : Type} (o : Host.Outcome State Fault Refusal) (f : State → α) : Option α :=
  match o with
  | .next t => some (f t)
  | .fault _ => none
  | .refused _ => none

/-- The reason a step stops with a fault, if it does. -/
def faultOf (o : Host.Outcome State Fault Refusal) : Option Fault :=
  match o with
  | .next _ => none
  | .fault r => some r
  | .refused _ => none

-- O1, O14
theorem test_add_register_overflow : shows (step (at3000 0x1042#16 [(1#3, 0x7FFF#16), (2#3, 0x0001#16)] []))
    (fun t => (t.reg 0#3, t.cond, t.pc)) = some (0x8000#16, .n, 0x3001#16) := by decide
theorem test_add_register_ignored_bits : shows (step (at3000 0x105A#16 [(1#3, 0x0001#16), (2#3, 0x0002#16)] []))
    (fun t => (t.reg 0#3, t.cond)) = some (0x0003#16, .p) := by decide
-- S5, O4
theorem test_add_immediate : shows (step (at3000 0x1063#16 [(1#3, 0x0005#16)] []))
    (fun t => (t.reg 0#3, t.cond)) = some (0x0008#16, .p) := by decide
theorem test_add_immediate_negative : shows (step (at3000 0x14BF#16 [] []))
    (fun t => (t.reg 2#3, t.cond)) = some (0xFFFF#16, .n) := by decide
-- S6, O9
theorem test_and_register : shows (step (at3000 0x5042#16 [(1#3, 0x000C#16), (2#3, 0x000A#16)] []))
    (fun t => (t.reg 0#3, t.cond)) = some (0x0008#16, .p) := by decide
theorem test_and_register_negative : shows (step (at3000 0x5042#16 [(1#3, 0x8001#16), (2#3, 0x8000#16)] []))
    (fun t => (t.reg 0#3, t.cond)) = some (0x8000#16, .n) := by decide
-- O7, O8
theorem test_and_immediate_negative : shows (step (at3000 0x5070#16 [(1#3, 0xFFFF#16)] []))
    (fun t => (t.reg 0#3, t.cond)) = some (0xFFF0#16, .n) := by decide
theorem test_and_immediate_zero : shows (step (before 0x3000#16 0x5020#16 [(0#3, 0x1234#16)] [] [] true .p))
    (fun t => (t.reg 0#3, t.cond)) = some (0x0000#16, .z) := by decide
-- O12, O13
theorem test_not : shows (step (at3000 0x92BF#16 [(2#3, 0x00F0#16)] []))
    (fun t => (t.reg 1#3, t.cond)) = some (0xFF0F#16, .n) := by decide
theorem test_not_same_register : shows (step (at3000 0x903F#16 [(0#3, 0x8000#16)] []))
    (fun t => (t.reg 0#3, t.cond)) = some (0x7FFF#16, .p) := by decide
-- C1, C6
theorem test_br_taken : shows (step (at3000 0x05FD#16 [] [])) (fun t => t.pc) = some 0x2FFE#16 := by decide
theorem test_br_wraps : shows (step (before 0xFFFF#16 0x0201#16 [] [] [] true .p)) (fun t => t.pc) =
    some 0x0001#16 := by decide
-- C7
theorem test_jmp : shows (step (at3000 0xC080#16 [(2#3, 0x4000#16)] [])) (fun t => (t.pc, t.cond)) =
    some (0x4000#16, .z) := by decide
-- C8
theorem test_ret : shows (step (at3000 0xC1C0#16 [(7#3, 0x1234#16)] [])) (fun t => t.pc) =
    some 0x1234#16 := by decide
-- C9, C12
theorem test_jsr : shows (step (at3000 0x4FFF#16 [] [])) (fun t => (t.reg 7#3, t.pc)) =
    some (0x3001#16, 0x3000#16) := by decide
theorem test_jsr_at_zero : shows (step (before 0x0000#16 0x4FFF#16 [] [] [] true .z))
    (fun t => (t.reg 7#3, t.pc)) = some (0x0001#16, 0x0000#16) := by decide
-- C10, C11
theorem test_jsrr : shows (step (at3000 0x40C0#16 [(3#3, 0x5000#16)] [])) (fun t => (t.reg 7#3, t.pc)) =
    some (0x3001#16, 0x5000#16) := by decide
theorem test_jsrr_r7 : shows (step (at3000 0x41C0#16 [(7#3, 0x5000#16)] [])) (fun t => (t.reg 7#3, t.pc)) =
    some (0x3001#16, 0x3001#16) := by decide
-- L1, L2
theorem test_ld : shows (step (at3000 0x2402#16 [] [(0x3003#16, 0x0005#16)]))
    (fun t => (t.reg 2#3, t.cond)) = some (0x0005#16, .p) := by decide
theorem test_ld_own_word : shows (step (at3000 0x21FF#16 [] []))
    (fun t => (t.reg 0#3, t.cond)) = some (0x21FF#16, .p) := by decide
-- L3, L4
theorem test_ldi : shows (step (at3000 0xA001#16 [] [(0x3002#16, 0x4000#16), (0x4000#16, 0x1234#16)]))
    (fun t => (t.reg 0#3, t.cond)) = some (0x1234#16, .p) := by decide
theorem test_ldi_kbsr : shows (step (before 0x3000#16 0xA400#16 [] [(0x3001#16, 0xFE00#16)] [0x41#8] false .z))
    (fun t => (t.reg 2#3, t.cond, t.cell 0xFE00#16, t.cell 0xFE02#16, t.console.inQueue)) =
    some (0x8000#16, .n, 0x8000#16, 0x0041#16, []) := by decide
-- L6, L8
theorem test_ldr : shows (step (at3000 0x62BF#16 [(2#3, 0x4001#16)] [(0x4000#16, 0x8001#16)]))
    (fun t => (t.reg 1#3, t.cond)) = some (0x8001#16, .n) := by decide
theorem test_ldr_wraps : shows (step (at3000 0x62BF#16 [] [(0xFFFF#16, 0x0007#16)]))
    (fun t => (t.reg 1#3, t.cond)) = some (0x0007#16, .p) := by decide
-- L9, L11
theorem test_lea : shows (step (at3000 0xE1FE#16 [] [])) (fun t => (t.reg 0#3, t.cond)) =
    some (0x2FFF#16, .p) := by decide
theorem test_lea_wraps : shows (step (before 0xFFFF#16 0xE1FF#16 [] [] [] true .z))
    (fun t => (t.reg 0#3, t.cond)) = some (0xFFFF#16, .n) := by decide
-- L12, L13
theorem test_st : shows (step (at3000 0x3600#16 [(3#3, 0xBEEF#16)] []))
    (fun t => (t.cell 0x3001#16, t.cond)) = some (0xBEEF#16, .z) := by decide
theorem test_st_backwards : shows (step (at3000 0x31FE#16 [(0#3, 0x0141#16)] []))
    (fun t => (t.cell 0x2FFF#16, t.console.out)) = some (0x0141#16, []) := by decide
-- L14, L15
theorem test_sti_ddr : shows (step (at3000 0xB203#16 [(1#3, 0x0041#16)] [(0x3004#16, 0xFE06#16)]))
    (fun t => (t.cell 0xFE06#16, t.console.out)) = some (0x0041#16, [0x41#8]) := by decide
theorem test_sti_zero : shows (step (at3000 0xB001#16 [] [(0x3002#16, 0x5000#16), (0x5000#16, 0x0001#16)]))
    (fun t => (t.cell 0x5000#16, t.cell 0x3002#16)) = some (0x0000#16, 0x5000#16) := by decide
-- L16, L17
theorem test_str : shows (step (at3000 0x7946#16 [(5#3, 0x4000#16), (4#3, 0x0007#16)] []))
    (fun t => t.cell 0x4006#16) = some 0x0007#16 := by decide
theorem test_str_ddr : shows (step (at3000 0x7000#16 [(0#3, 0xFE06#16)] []))
    (fun t => (t.cell 0xFE06#16, t.console.out)) = some (0xFE06#16, [0x06#8]) := by decide
-- F1, F2
theorem test_rti : shows (step (at3000 0x8000#16 [] [])) (fun t => (t.pc, t.run)) =
    some (0x3001#16, .faulted { cause := .reservedOpcode, addr := 0x3000#16, instr := 0x8000#16,
                                detail := .opcode 0x8#4 }) := by decide
theorem test_res : shows (step (before 0xFFFF#16 0xD123#16 [] [] [] true .z)) (fun t => (t.pc, t.run)) =
    some (0x0000#16, .faulted { cause := .reservedOpcode, addr := 0xFFFF#16, instr := 0xD123#16,
                                detail := .opcode 0xD#4 }) := by decide
-- T16, T17
theorem test_trap_x26 : shows (step (at3000 0xF026#16 [] [])) (fun t => (t.reg 7#3, t.run)) =
    some (0x3001#16, .faulted { cause := .unknownTrap, addr := 0x3000#16, instr := 0xF026#16,
                                detail := .trapVector 0x26#8 }) := by decide
theorem test_trap_x00 : shows (step (at3000 0xF000#16 [] [])) (fun t => t.run) =
    some (.faulted { cause := .unknownTrap, addr := 0x3000#16, instr := 0xF000#16,
                     detail := .trapVector 0x00#8 }) := by decide
-- T1, T2
theorem test_getc : shows (step (at3000 0xF020#16 [] [])) (fun t => (t.reg 7#3, t.run)) =
    some (0x3001#16, .waiting .getc) := by decide
theorem test_getc_completion :
    shows (step ((before 0x3000#16 0#16 [] [] [0x61#8] false .n).setRun (.waiting .getc)))
      (fun t => (t.reg 0#3, t.run, t.console, t.cond)) =
    some (0x0061#16, .running, { inQueue := [], inClosed := false, out := [] }, .n) := by decide
-- T5
theorem test_out : shows (step (at3000 0xF021#16 [(0#3, 0xFF0A#16)] []))
    (fun t => (t.console.out, t.reg 0#3, t.reg 7#3)) = some ([0x0A#8], 0xFF0A#16, 0x3001#16) := by decide
-- T6, T8
theorem test_puts : shows (step (at3000 0xF022#16 [(0#3, 0x4000#16)] [(0x4000#16, 0x0048#16), (0x4001#16, 0x0069#16)]))
    (fun t => (t.console.out, t.reg 0#3, t.reg 7#3)) = some ([0x48#8, 0x69#8], 0x4000#16, 0x3001#16) := by decide
theorem test_puts_ignores_high_byte : shows (step (at3000 0xF022#16 [(0#3, 0x4000#16)] [(0x4000#16, 0x1241#16)]))
    (fun t => t.console.out) = some [0x41#8] := by decide
-- T9 (for every prompt), T10
theorem test_in : exec .trapIn (at3000 0xF023#16 [] []) =
    .next ((((at3000 0xF023#16 [] []).setReg 7#3 0x3000#16).setConsole
      { inQueue := [], inClosed := true, out := Config.inPrompt }).setRun (.waiting .inChar)) := by
  have h : exec .trapIn (at3000 0xF023#16 [] []) =
      .next (((at3000 0xF023#16 [] []).linkPc.consoleEmitAll Config.inPrompt).wait .inChar) := rfl
  rw [h, State.consoleEmitAll_eq]
  rfl
theorem test_in_completion :
    shows (step ((before 0x3000#16 0#16 [] [] [0x7A#8] false .p).setRun (.waiting .inChar)))
      (fun t => (t.reg 0#3, t.run, t.console)) =
    some (0x007A#16, .running, { inQueue := [], inClosed := false, out := [0x7A#8] }) := by decide
-- T12, T13
theorem test_putsp : shows (step (at3000 0xF024#16 [(0#3, 0x4000#16)] [(0x4000#16, 0x6948#16), (0x4001#16, 0x0021#16)]))
    (fun t => (t.console.out, t.reg 7#3)) = some ([0x48#8, 0x69#8, 0x21#8], 0x3001#16) := by decide
theorem test_putsp_zero_low_byte : shows (step (at3000 0xF024#16 [(0#3, 0x4000#16)] [(0x4000#16, 0x4100#16)]))
    (fun t => t.console.out) = some [] := by decide
-- T15
theorem test_halt : shows (step (at3000 0xF025#16 [] [])) (fun t => (t.reg 7#3, t.pc, t.run, t.console.out)) =
    some (0x3001#16, 0x3001#16, .halted, []) := by decide

/-! ## Waiting, terminal states, MMIO, load -/

-- T4, and the host's turn that lifts the hold
theorem test_held : faultOf (step ((before 0x3000#16 0#16 [] [] [] false .z).setRun (.waiting .getc))) =
    some (.held .getc) := by decide
theorem test_host_lifts_the_hold :
    shows (step (((before 0x3000#16 0#16 [] [] [] false .z).setRun (.waiting .getc)).setHost [[.input 0x42#8]]))
      (fun t => (t.reg 0#3, t.run, t.host)) = some (0x0042#16, .running, []) := by decide
-- F3, F4
theorem test_halted_has_no_step : faultOf (step (State.reset.setRun .halted)) = some .halted := by decide
theorem test_faulted_has_no_step :
    faultOf (step (State.reset.raiseReserved 0x8000#16 .rti)) =
      some (.faulted { cause := .reservedOpcode, addr := 0x2FFF#16, instr := 0x8000#16, detail := .opcode 0x8#4 }) := by
  decide
-- M1
theorem test_kbsr_twice :
    let s := before 0x3000#16 0#16 [] [] [0x41#8, 0x42#8] false .z
    (s.memRead 0xFE00#16).1 = 0x8000#16 ∧ (s.memRead 0xFE00#16).2.cell 0xFE02#16 = 0x0041#16 ∧
    ((s.memRead 0xFE00#16).2.memRead 0xFE00#16).2.cell 0xFE02#16 = 0x0042#16 := by decide
-- M2, M3
theorem test_kbsr_without_input :
    let s := at3000 0#16 [] [(0xFE00#16, 0x1234#16), (0xFE02#16, 0x0042#16)]
    (s.memRead 0xFE00#16).1 = 0x0000#16 ∧ (s.memRead 0xFE00#16).2.cell 0xFE02#16 = 0x0042#16 := by decide
-- M5, M6
theorem test_ddr_write : ((at3000 0#16 [] []).memWrite 0xFE06#16 0x1241#16).console.out = [0x41#8] := by decide
theorem test_dsr_write : ((at3000 0#16 [] []).memWrite 0xFE04#16 0x8000#16).console.out = [] ∧
    ((at3000 0#16 [] []).memWrite 0xFE04#16 0x8000#16).cell 0xFE04#16 = 0x8000#16 := by decide
-- M7, M8
theorem test_fetch_at_kbsr_key :
    shows (step ((State.reset.setPc 0xFE00#16).setConsole { inQueue := [0x41#8], inClosed := false, out := [] }))
      (fun t => t.run) =
    some (.faulted { cause := .reservedOpcode, addr := 0xFE00#16, instr := 0x8000#16, detail := .opcode 0x8#4 }) := by
  decide
theorem test_fetch_at_kbsr_no_key : shows (step (State.reset.setPc 0xFE00#16)) (fun t => (t.pc, t.run)) =
    some (0xFE01#16, .running) := by decide
-- M9
theorem test_load_bypasses_mmio :
    shows (launch { startPc := 0x3000#16, images := [{ origin := 0xFE06#16, words := [0x0041#16] }], inQueue := [],
                    inClosed := true, host := [] })
      (fun t => (t.cell 0xFE06#16, t.console.out)) = some (0x0041#16, []) := by decide
-- Config: the reset memory reads as zero words, and 0x0000 is the no-op BR (R46, R82)
theorem test_reset_step : shows (step State.reset) (fun t => (t.pc, t.run)) = some (0x3001#16, .running) := by decide

/-! ## Witnesses: a concrete state and operands for the hypotheses of each obligation -/

theorem witness_DecodeOfEncode : wellFormed (.br 0#3 0xFF00#16) = true ∧ wellFormed (.addImm 7#3 7#3 0x000F#16) = true ∧
    wellFormed (.jsr 0xFC00#16) = true ∧ wellFormed (.ldr 0#3 0#3 0x001F#16) = true ∧
    wellFormed (.rti 0x8FFF#16) = true ∧ wellFormed (.res 0xD000#16) = true ∧ wellFormed (.jmp 6#3) = true ∧
    wellFormed (.trap 0x1F#8) = true ∧ wellFormed (.trap 0x26#8) = true ∧ wellFormed .ret = true := by decide

/-- One pair of words for each clause, every ignored bit different. -/
theorem witness_IgnoredBits :
    ((0x1042#16).extractLsb' 12 4 = (0x105A#16).extractLsb' 12 4 ∧ (0x1042#16).extractLsb' 12 4 = 0x1#4 ∧
      (0x1042#16).extractLsb' 5 7 = (0x105A#16).extractLsb' 5 7 ∧ (0x1042#16).getLsbD 5 = false ∧
      (0x1042#16).extractLsb' 0 3 = (0x105A#16).extractLsb' 0 3) ∧
    ((0x5042#16).extractLsb' 12 4 = (0x505A#16).extractLsb' 12 4 ∧ (0x5042#16).extractLsb' 12 4 = 0x5#4 ∧
      (0x5042#16).extractLsb' 5 7 = (0x505A#16).extractLsb' 5 7 ∧ (0x5042#16).getLsbD 5 = false ∧
      (0x5042#16).extractLsb' 0 3 = (0x505A#16).extractLsb' 0 3) ∧
    ((0x903F#16).extractLsb' 12 4 = (0x9000#16).extractLsb' 12 4 ∧ (0x903F#16).extractLsb' 12 4 = 0x9#4 ∧
      (0x903F#16).extractLsb' 6 6 = (0x9000#16).extractLsb' 6 6) ∧
    ((0xC1C0#16).extractLsb' 12 4 = (0xCFFF#16).extractLsb' 12 4 ∧ (0xC1C0#16).extractLsb' 12 4 = 0xC#4 ∧
      (0xC1C0#16).extractLsb' 6 3 = (0xCFFF#16).extractLsb' 6 3) ∧
    ((0x41C0#16).extractLsb' 12 4 = (0x47FF#16).extractLsb' 12 4 ∧ (0x41C0#16).extractLsb' 12 4 = 0x4#4 ∧
      (0x41C0#16).getLsbD 11 = false ∧ (0x47FF#16).getLsbD 11 = false ∧
      (0x41C0#16).extractLsb' 6 3 = (0x47FF#16).extractLsb' 6 3) ∧
    ((0xF025#16).extractLsb' 12 4 = (0xFF25#16).extractLsb' 12 4 ∧ (0xF025#16).extractLsb' 12 4 = 0xF#4 ∧
      (0xF025#16).extractLsb' 0 8 = (0xFF25#16).extractLsb' 0 8) ∧
    ((0x8000#16).extractLsb' 12 4 = (0x8FFF#16).extractLsb' 12 4 ∧ (0x8000#16).extractLsb' 12 4 = 0x8#4) ∧
    ((0xD000#16).extractLsb' 12 4 = (0xDFFF#16).extractLsb' 12 4 ∧ (0xD000#16).extractLsb' 12 4 = 0xD#4) := by
  decide

theorem witness_SignAndZeroExtension : ((5 = 5 ∨ 5 = 6 ∨ 5 = 9 ∨ 5 = 11) ∧ (11 = 5 ∨ 11 = 6 ∨ 11 = 9 ∨ 11 = 11)) ∧
    (0 ≤ 16 ∧ 16 ≤ 16) := by decide

/-- An image that ends at the last cell; 0xFFFE is not covered. -/
def lastCell : Launch :=
  { startPc := 0xFFFF#16, images := [{ origin := 0xFFFF#16, words := [0x1025#16] }], inQueue := [0x41#8],
    inClosed := true, host := [[.close]] }

/-- An image one word too long. -/
def tooLong : Launch := { lastCell with images := [{ origin := 0xFFFF#16, words := [0x1025#16, 0xF025#16] }] }

theorem witness_Launch : (∀ im ∈ lastCell.images, im.origin.toNat + im.words.length ≤ 0x10000) ∧
    (∀ im ∈ lastCell.images, im.wordAt 0xFFFE#16 = none) ∧ ∃ t, launch lastCell = .next t :=
  ⟨by decide, by decide, _, rfl⟩

theorem witness_ImagePastTheEnd : ∃ im ∈ tooLong.images, 0x10000 < im.origin.toNat + im.words.length :=
  ⟨{ origin := 0xFFFF#16, words := [0x1025#16, 0xF025#16] }, by decide, by decide⟩

theorem witness_StepRuns : State.reset.run = .running ∧ State.reset.host = [] ∧ State.reset.pc ≠ 0xFE00#16 ∧
    (State.reset.setPc 0xFDFF#16).pc ≠ 0xFE00#16 ∧ (State.reset.setPc 0xFE01#16).pc ≠ 0xFE00#16 := by decide

theorem witness_HostTurn :
    (State.reset.setHost [[.input 0x41#8, .close, .input 0x42#8], []]).host =
      [.input 0x41#8, .close, .input 0x42#8] :: [[]] := by decide

theorem witness_HostTurn_closed :
    ((State.reset.setConsole { inQueue := [], inClosed := true, out := [] }).setHost [[.input 0x41#8]]).host =
      [.input 0x41#8] :: [] := by decide

theorem witness_FetchAtKbsr_key :
    let s := (State.reset.setPc 0xFE00#16).setConsole { inQueue := [0x41#8], inClosed := false, out := [] }
    s.run = .running ∧ s.pc = 0xFE00#16 ∧ s.hostTurn.console.inQueue = 0x41#8 :: [] := by decide

theorem witness_FetchAtKbsr_key_of_this_turn :
    let s := (State.reset.setPc 0xFE00#16).setHost [[.input 0x41#8]]
    s.run = .running ∧ s.pc = 0xFE00#16 ∧ s.hostTurn.console.inQueue = 0x41#8 :: [] := by decide

theorem witness_FetchAtKbsr_no_key :
    let s := State.reset.setPc 0xFE00#16
    s.run = .running ∧ s.pc = 0xFE00#16 ∧ s.hostTurn.console.inQueue = [] := by decide

/-- The reset state with a fault record. -/
def faultedState : State := State.reset.raiseUnknownTrap 0x26#8

theorem witness_NoStep : (State.reset.setRun .halted).run = .halted ∧
    faultedState.run = .faulted { cause := .unknownTrap, addr := 0x2FFF#16, instr := 0#16,
                                  detail := .trapVector 0x26#8 } := by decide

theorem witness_WaitingIsHeld :
    let s := State.reset.setRun (.waiting .inChar)
    s.run = .waiting .inChar ∧ s.hostTurn.console.inQueue = [] ∧ s.hostTurn.console.inClosed = false ∧
      s.host = [] := by decide

theorem witness_WaitingIsHeld_with_a_turn :
    let s := (State.reset.setRun (.waiting .getc)).setHost [[]]
    s.run = .waiting .getc ∧ s.hostTurn.console.inQueue = [] ∧ s.hostTurn.console.inClosed = false ∧
      s.host ≠ [] := by decide

theorem witness_Completes_char :
    let s := State.reset.setConsole { inQueue := [0xFF#8, 0x00#8], inClosed := false, out := [] }
    (s.setRun (.waiting .getc)).run = .waiting .getc ∧ (s.setRun (.waiting .inChar)).run = .waiting .inChar ∧
      (s.setRun (.waiting .getc)).hostTurn.console.inQueue = 0xFF#8 :: [0x00#8] ∧
      (s.setRun (.waiting .inChar)).hostTurn.console.inQueue = 0xFF#8 :: [0x00#8] := by decide

/-- The byte comes with the very turn before the step. -/
theorem witness_Completes_char_of_this_turn :
    let s := State.reset.setHost [[.input 0x00#8, .close], [.input 0x41#8]]
    (s.setRun (.waiting .getc)).run = .waiting .getc ∧ (s.setRun (.waiting .inChar)).run = .waiting .inChar ∧
      (s.setRun (.waiting .getc)).hostTurn.console.inQueue = 0x00#8 :: [] ∧
      (s.setRun (.waiting .inChar)).hostTurn.console.inQueue = 0x00#8 :: [] := by decide

theorem witness_Completes_end :
    let s := State.reset.setConsole { inQueue := [], inClosed := true, out := [] }
    (s.setRun (.waiting .getc)).run = .waiting .getc ∧ (s.setRun (.waiting .inChar)).run = .waiting .inChar ∧
      (s.setRun (.waiting .getc)).hostTurn.console.inQueue = [] ∧
      (s.setRun (.waiting .getc)).hostTurn.console.inClosed = true ∧
      (s.setRun (.waiting .inChar)).hostTurn.console.inQueue = [] ∧
      (s.setRun (.waiting .inChar)).hostTurn.console.inClosed = true := by decide

/-- Input is ended by the very turn before the step. -/
theorem witness_Completes_end_of_this_turn :
    let s := State.reset.setHost [[.close]]
    (s.setRun (.waiting .getc)).run = .waiting .getc ∧ (s.setRun (.waiting .inChar)).run = .waiting .inChar ∧
      (s.setRun (.waiting .getc)).hostTurn.console.inQueue = [] ∧
      (s.setRun (.waiting .getc)).hostTurn.console.inClosed = true ∧
      (s.setRun (.waiting .inChar)).hostTurn.console.inQueue = [] ∧
      (s.setRun (.waiting .inChar)).hostTurn.console.inClosed = true := by decide

theorem witness_MemRead_MemWrite : 0xFDFF#16 ≠ 0xFE00#16 ∧ 0xFE01#16 ≠ 0xFE00#16 ∧ 0xFE05#16 ≠ 0xFE06#16 ∧
    0xFE07#16 ≠ 0xFE06#16 ∧ 0xFE06#16 = 0xFE06#16 := by decide

theorem witness_KbsrPoll :
    (State.reset.setConsole { inQueue := [0x41#8], inClosed := true, out := [] }).console.inQueue = 0x41#8 :: [] ∧
      State.reset.console.inQueue = [] := by decide

theorem witness_CanonicalMemories :
    Memory.wf [(0, 1#16), (65535, 2#16)] = true ∧
    Memory.wf (Memory.put (Memory.put (Memory.put [] 65535 2#16) 7 0#16) 0 1#16) = true ∧
    ∀ a : Word, Memory.get [(0, 1#16), (65535, 2#16)] a.toNat =
      Memory.get (Memory.put (Memory.put (Memory.put [] 65535 2#16) 7 0#16) 0 1#16) a.toNat :=
  ⟨by decide, by decide, fun _ => rfl⟩

/-- A word for each clause that reads an encoding (ADD, AND, NOT, BR, JMP, JSR, JSRR, the loads, LEA, the stores,
TRAP, RTI, RES). -/
theorem witness_Encodings :
    ((0x1042#16).extractLsb' 12 4 = 0x1#4 ∧ (0x1042#16).getLsbD 5 = false) ∧
    ((0x1063#16).extractLsb' 12 4 = 0x1#4 ∧ (0x1063#16).getLsbD 5 = true) ∧
    ((0x5042#16).extractLsb' 12 4 = 0x5#4 ∧ (0x5042#16).getLsbD 5 = false) ∧
    ((0x5070#16).extractLsb' 12 4 = 0x5#4 ∧ (0x5070#16).getLsbD 5 = true) ∧
    (0x903F#16).extractLsb' 12 4 = 0x9#4 ∧ (0x0FFF#16).extractLsb' 12 4 = 0x0#4 ∧
    (0xC1C0#16).extractLsb' 12 4 = 0xC#4 ∧
    ((0x4FFF#16).extractLsb' 12 4 = 0x4#4 ∧ (0x4FFF#16).getLsbD 11 = true) ∧
    ((0x41C0#16).extractLsb' 12 4 = 0x4#4 ∧ (0x41C0#16).getLsbD 11 = false) ∧
    (0x2402#16).extractLsb' 12 4 = 0x2#4 ∧ (0xA001#16).extractLsb' 12 4 = 0xA#4 ∧
    (0x62BF#16).extractLsb' 12 4 = 0x6#4 ∧ (0xE1FE#16).extractLsb' 12 4 = 0xE#4 ∧
    (0x3600#16).extractLsb' 12 4 = 0x3#4 ∧ (0xB203#16).extractLsb' 12 4 = 0xB#4 ∧
    (0x7946#16).extractLsb' 12 4 = 0x7#4 ∧ (0xF026#16).extractLsb' 12 4 = 0xF#4 ∧
    (0x8000#16).extractLsb' 12 4 = 0x8#4 ∧ (0xD123#16).extractLsb' 12 4 = 0xD#4 := by decide

/-- LD's address at KBSR and beside it. -/
theorem witness_LdLdr_kbsr : (State.reset.setPc 0xFDFF#16).pc + 0x0001#16 = 0xFE00#16 ∧
    (State.reset.setPc 0xFDFF#16).pc + 0x0000#16 ≠ 0xFE00#16 ∧
    (State.reset.setReg 2#3 0xFE01#16).reg 2#3 + 0xFFFF#16 = 0xFE00#16 ∧
    (State.reset.setReg 2#3 0xFE01#16).reg 2#3 + 0x0000#16 ≠ 0xFE00#16 := by decide

theorem witness_LdiSti : ∃ s₁, (at3000 0xA001#16 [] [(0x3001#16, 0x4000#16)]).memRead
      ((at3000 0xA001#16 [] [(0x3001#16, 0x4000#16)]).pc + 0x0001#16) = (0x4000#16, s₁) ∧
    (at3000 0xA001#16 [] [(0x3001#16, 0x4000#16)]).pc + 0x0001#16 ≠ 0xFE00#16 ∧ 0x4000#16 ≠ 0xFE00#16 :=
  ⟨_, rfl, by decide, by decide⟩

/-- The pointer of LDI and STI read at KBSR itself. -/
theorem witness_LdiSti_kbsr : ∃ s₁, ((State.reset.setPc 0xFE00#16).setConsole
      { inQueue := [0x41#8], inClosed := false, out := [] }).memRead 0xFE00#16 = (0x8000#16, s₁) := ⟨_, rfl⟩

theorem witness_StoredWord_st :
    let s := at3000 0x3600#16 [(3#3, 0xBEEF#16)] []
    s.run = .running ∧ s.pc ≠ 0xFE00#16 ∧ s.pc + 1#16 ≠ 0xFE00#16 ∧
      decode (s.cell s.pc) = .st 3#3 0x0000#16 ∧ ∃ t, step s = .next t :=
  ⟨by decide, by decide, by decide, by decide, _, rfl⟩

theorem witness_StoredWord_sti :
    let s := (at3000 0xB201#16 [(1#3, 0xF025#16)] [(0x3002#16, 0x3001#16)]).setHost [[.input 0x41#8]]
    s.run = .running ∧ s.pc ≠ 0xFE00#16 ∧ s.pc + 1#16 ≠ 0xFE00#16 ∧
      decode (s.cell s.pc) = .sti 1#3 0x0001#16 ∧ (s.hostTurn.memRead (s.pc + 1#16 + 0x0001#16)).1 = s.pc + 1#16 ∧
      ∃ t, step s = .next t :=
  ⟨by decide, by decide, by decide, by decide, by decide, _, rfl⟩

theorem witness_StoredWord_str :
    let s := at3000 0x7B7F#16 [(5#3, 0x3002#16)] []
    s.run = .running ∧ s.pc ≠ 0xFE00#16 ∧ s.pc + 1#16 ≠ 0xFE00#16 ∧
      decode (s.cell s.pc) = .str 5#3 5#3 0xFFFF#16 ∧ s.reg 5#3 + 0xFFFF#16 = s.pc + 1#16 ∧ ∃ t, step s = .next t :=
  ⟨by decide, by decide, by decide, by decide, by decide, _, rfl⟩

theorem witness_UnknownVectors : (0x00#8 : Byte).toNat < 0x20 ∧ (0x1F#8 : Byte).toNat < 0x20 ∧
    0x25 < (0x26#8 : Byte).toNat ∧ 0x25 < (0xFF#8 : Byte).toNat := by decide

/-- "Hi" at 0xFDFC, its zero word at 0xFDFE. -/
def hiString : State := at3000 0xF022#16 [(0#3, 0xFDFC#16)] [(0xFDFC#16, 0x0048#16), (0xFDFD#16, 0x0069#16)]

theorem witness_PutsEmitsAString :
    (∀ k : Nat, k ≤ 2 → hiString.reg 0#3 + BitVec.ofNat 16 k ≠ 0xFE00#16) ∧
    (∀ k : Nat, k < 2 → hiString.cell (hiString.reg 0#3 + BitVec.ofNat 16 k) ≠ 0#16) ∧
    hiString.cell (hiString.reg 0#3 + BitVec.ofNat 16 2) = 0#16 := by decide

/-- "Hi" packed at 0xFDFD, and at 0xFDFE a word whose low byte is zero, or whose high byte alone is. -/
def packedString (last : Word) : State :=
  at3000 0xF024#16 [(0#3, 0xFDFD#16)] [(0xFDFD#16, 0x6948#16), (0xFDFE#16, last)]

theorem witness_PutspEmitsAString_low :
    (∀ k : Nat, k ≤ 1 → (packedString 0x4100#16).reg 0#3 + BitVec.ofNat 16 k ≠ 0xFE00#16) ∧
    (∀ k : Nat, k < 1 →
      ((packedString 0x4100#16).cell ((packedString 0x4100#16).reg 0#3 + BitVec.ofNat 16 k)).extractLsb' 0 8 ≠ 0#8 ∧
      ((packedString 0x4100#16).cell ((packedString 0x4100#16).reg 0#3 + BitVec.ofNat 16 k)).extractLsb' 8 8 ≠ 0#8) ∧
    ((packedString 0x4100#16).cell ((packedString 0x4100#16).reg 0#3 + BitVec.ofNat 16 1)).extractLsb' 0 8 = 0#8 := by
  decide

theorem witness_PutspEmitsAString_high :
    (∀ k : Nat, k ≤ 1 → (packedString 0x0021#16).reg 0#3 + BitVec.ofNat 16 k ≠ 0xFE00#16) ∧
    (∀ k : Nat, k < 1 →
      ((packedString 0x0021#16).cell ((packedString 0x0021#16).reg 0#3 + BitVec.ofNat 16 k)).extractLsb' 0 8 ≠ 0#8 ∧
      ((packedString 0x0021#16).cell ((packedString 0x0021#16).reg 0#3 + BitVec.ofNat 16 k)).extractLsb' 8 8 ≠ 0#8) ∧
    ((packedString 0x0021#16).cell ((packedString 0x0021#16).reg 0#3 + BitVec.ofNat 16 1)).extractLsb' 8 8 = 0#8 := by
  decide

theorem witness_UnknownTrapVector :
    let s := at3000 0xF11F#16 [] []
    let s' := at3000 0xF026#16 [] []
    (s.run = .running ∧ s.pc ≠ 0xFE00#16 ∧ s.cell s.pc = 0xF11F#16 ∧
      (0xF11F#16).extractLsb' 12 4 = 0xF#4 ∧ ((0xF11F#16).extractLsb' 0 8).toNat < 0x20) ∧
    (s'.run = .running ∧ s'.pc ≠ 0xFE00#16 ∧ s'.cell s'.pc = 0xF026#16 ∧
      (0xF026#16).extractLsb' 12 4 = 0xF#4 ∧ 0x25 < ((0xF026#16).extractLsb' 0 8).toNat) := by decide

theorem witness_OnlyReservedAndUnknownTrapsFault : faulting (.rti 0x8000#16) = true ∧ faulting (.res 0xD000#16) = true ∧
    faulting (.trap 0x26#8) = true ∧ faulting (.trap 0x20#8) = false ∧ faulting .ret = false ∧
    ∃ t r, exec .ret faultedState = .next t ∧ t.run = .faulted r :=
  ⟨rfl, rfl, rfl, rfl, rfl, _, _, rfl, rfl⟩

theorem witness_FaultsArePrecise : (faulting (.rti 0x8000#16) = true ∧ ∃ t, exec (.rti 0x8000#16) State.reset = .next t) ∧
    (faulting (.trap 0xFF#8) = true ∧ ∃ t, exec (.trap 0xFF#8) State.reset = .next t) :=
  ⟨⟨rfl, _, rfl⟩, ⟨rfl, _, rfl⟩⟩

theorem witness_WholeMachine : (∃ t, exec (.addImm 0#3 0#3 1#16) State.reset = .next t) ∧
    writesPc (.addImm 0#3 0#3 1#16) = false ∧ flagSetting (.addImm 0#3 0#3 1#16) = true ∧
    flagSetting (.st 0#3 1#16) = false ∧ (∃ t, exec (.st 0#3 1#16) State.reset = .next t) ∧
    storing (.addImm 0#3 0#3 1#16) = false :=
  ⟨⟨_, rfl⟩, rfl, rfl, rfl, ⟨_, rfl⟩, rfl⟩

theorem witness_OutputOnlyGrows : ∃ t, step (at3000 0xF021#16 [] []) = .next t := ⟨_, rfl⟩

theorem witness_StepKeepsMemoryCanonical : MemoryCanonical (at3000 0x3600#16 [(3#3, 0xBEEF#16)] []) ∧
    ∃ t, step (at3000 0x3600#16 [(3#3, 0xBEEF#16)] []) = .next t :=
  ⟨by unfold MemoryCanonical; decide, _, rfl⟩

/-! ### A run that reads unending input runs forever -/

/-- GETC at 0x3000 and BRnzp #-2 at 0x3001, input open, and the CORE at one of them or waiting between them. -/
def ReadsForever (s : State) : Prop :=
  s.cell 0x3000#16 = 0xF020#16 ∧ s.cell 0x3001#16 = 0x0FFE#16 ∧ s.console.inClosed = false ∧
    (s.run = .running ∧ (s.pc = 0x3000#16 ∨ s.pc = 0x3001#16) ∨ s.run = .waiting .getc ∧ s.pc = 0x3001#16)

/-- Under a turn that brings a byte the reading goes on, and a wait is over after one step. -/
theorem readsForever_step {s : State} (h : ReadsForever s) : ∃ t, stepUnder [.input 0x41#8] s = .next t ∧
    ReadsForever t ∧ (s.run = .running ∨ t.run = .running) := by
  obtain ⟨h0, h1, hc, ⟨hr, hp | hp⟩ | ⟨hr, hp⟩⟩ := h
  all_goals
    have hin : s.console.hostMoves [.input 0x41#8] =
        { s.console with inQueue := s.console.inQueue ++ [0x41#8] } := by simp [Console.hostMove, hc]
  · rw [stepUnder_running_of_ne hr (by rw [hp]; decide), hin, hp, h0, test_decode_getc]
    exact ⟨_, rfl, ⟨h0, h1, hc, .inr ⟨rfl, rfl⟩⟩, .inl hr⟩
  · rw [stepUnder_running_of_ne hr (by rw [hp]; decide), hin, hp, h1,
      show decode 0x0FFE#16 = .br 7#3 0xFFFE#16 by decide]
    have taken : ∀ u : State, u.branchTaken 7#3 = true := fun u => by
      unfold State.branchTaken; cases u.cond <;> decide
    have back : 0x3001#16 + 1#16 + 0xFFFE#16 = 0x3000#16 := by decide
    refine ⟨_, congrArg Host.Outcome.next (if_pos (taken _)), ?_, .inl hr⟩
    rw [State.pcRelative_eq, State.setPc_pc, back]
    exact ⟨h0, h1, hc, .inl ⟨hr, .inl rfl⟩⟩
  · have hT := State.hostTurn_setHost_singleton s [.input 0x41#8]
    rw [hin] at hT
    refine ⟨_, step_waiting (s := s.setHost [[.input 0x41#8]]) hr (by rw [hT]; simp [State.inputReady]), ?_⟩
    rw [hT]
    rcases completeWait_cases ((s.setConsole { s.console with inQueue := s.console.inQueue ++ [0x41#8] }).setHost [])
      .getc with ⟨b, rest, -, e⟩ | ⟨hq, -, -⟩ | ⟨hq, -, -⟩
    · rw [e]
      exact ⟨⟨h0, h1, hc, .inl ⟨rfl, .inr hp⟩⟩, .inr rfl⟩
    · simp at hq
    · simp at hq

theorem readsForever_reaches {s : State} (h : ReadsForever s) (n : Nat) :
    ∃ t, ReachesUnder (fun _ => [.input 0x41#8]) n s t ∧ ReadsForever t := by
  induction n with
  | zero => exact ⟨s, reachesUnder_zero _ s, h⟩
  | succ n ih =>
    obtain ⟨t, ht, hi⟩ := ih
    obtain ⟨u, hu, hi', -⟩ := readsForever_step hi
    exact ⟨u, reachesUnder_succ.mpr ⟨t, ht, hu⟩, hi'⟩

/-- A run that waits for a byte again and again, and is brought one every time, runs forever (R108, D8). -/
theorem witness_RunsForeverUnder : RunsForeverUnder (fun _ => [.input 0x41#8])
    ((State.reset.setCell 0x3000#16 0xF020#16).setCell 0x3001#16 0x0FFE#16) := by
  intro n
  obtain ⟨t, ht, hi⟩ := readsForever_reaches
    (s := (State.reset.setCell 0x3000#16 0xF020#16).setCell 0x3001#16 0x0FFE#16)
    ⟨by decide, by decide, rfl, .inl ⟨rfl, .inl rfl⟩⟩ n
  obtain ⟨u, hu, -, hr⟩ := readsForever_step hi
  rcases hr with hr | hr
  · exact ⟨n, t, Nat.le_refl n, ht, hr⟩
  · exact ⟨n + 1, u, Nat.le_succ n, reachesUnder_succ.mpr ⟨t, ht, hu⟩, hr⟩

/-- The same program is blocked if the host never makes a move, with the GETC's wait for its last step. -/
theorem witness_BlockedUnder : BlockedUnder (fun _ => [])
    ((State.reset.setCell 0x3000#16 0xF020#16).setCell 0x3001#16 0x0FFE#16) :=
  ⟨1, _, .getc, ⟨_, rfl, rfl⟩, rfl, rfl, rfl, fun _ _ => rfl⟩

end Sys2Proof.Tests
end

/-! PROOFS of the notation's extensions (00_scope.md R13): the bits of `sext` and `zext`, and from them the
rule's own formula for `sext`, one lemma per value of the sign bit. -/

namespace Sys2Proof

theorem word_and_0xFFFF (w : Word) : w &&& 0xFFFF#16 = w := BitVec.and_allOnes

/-- The mask `0xFFFF << n` of R13 holds exactly the bits of a word from `n` up. -/
theorem getLsbD_0xFFFF_shiftLeft (n i : Nat) :
    (0xFFFF#16 <<< n).getLsbD i = (decide (i < 16) && decide (n ≤ i)) := by
  have hones : 0xFFFF#16 = BitVec.allOnes 16 := rfl
  rw [hones, BitVec.getLsbD_shiftLeft, BitVec.getLsbD_allOnes]
  by_cases hin : i < n
  · simp [hin, Nat.not_le_of_lt hin]
  · simpa [hin, Nat.le_of_not_lt hin] using Nat.lt_of_le_of_lt (Nat.sub_le i n)

theorem getLsbD_zext {n : Nat} (hn : n ≤ 16) (v : BitVec n) (i : Nat) :
    (zext v).getLsbD i = (decide (i < n) && v.getLsbD i) := by
  rw [zext, BitVec.getLsbD_setWidth]
  by_cases hi : i < n
  · simp [hi, Nat.lt_of_lt_of_le hi hn]
  · simp [hi, BitVec.getLsbD_of_ge v i (Nat.le_of_not_lt hi)]

theorem getLsbD_sext {n : Nat} (v : BitVec n) (i : Nat) :
    (sext v).getLsbD i = (decide (i < 16) && if i < n then v.getLsbD i else v.getLsbD (n - 1)) := by
  rw [sext, BitVec.getLsbD_signExtend, BitVec.msb_eq_getLsbD_last]

theorem sext_of_signBit {n : Nat} {v : BitVec n} (h : v.getLsbD (n - 1) = true) :
    sext v = v.setWidth 16 ||| (0xFFFF#16 <<< n) := by
  refine BitVec.eq_of_getLsbD_eq fun i hi => ?_
  rw [getLsbD_sext, BitVec.getLsbD_or, BitVec.getLsbD_setWidth, getLsbD_0xFFFF_shiftLeft, h]
  by_cases hin : i < n
  · simp [hi, hin]
  · simp [hi, hin, Nat.le_of_not_lt hin]

theorem sext_of_not_signBit {n : Nat} {v : BitVec n} (h : ¬ v.getLsbD (n - 1) = true) :
    sext v = v.setWidth 16 :=
  BitVec.signExtend_eq_setWidth_of_msb_false (by simpa [BitVec.msb_eq_getLsbD_last] using h)

/-- Settles O5, by the sign bit for `sext` (the formula holds at every width, so at the four) and bit by bit for
`zext`. -/
theorem signAndZeroExtensionFollowTheRule : Obligations.SignAndZeroExtensionFollowTheRule := by
  unfold Obligations.SignAndZeroExtensionFollowTheRule
  refine ⟨fun n _ v => ?_, fun _ hn => getLsbD_zext hn⟩
  split
  case isTrue h => rw [word_and_0xFFFF, sext_of_signBit h]
  case isFalse h => rw [sext_of_not_signBit h]

end Sys2Proof

/-! PROOFS of the operate instructions (41_operate.md): what writing DR together with the flags does, each
instruction as such a write, and from them ADD, AND and NOT. -/

namespace Sys2Proof.Machine

/-! ## What `writeDr` does -/

theorem State.reg_writeDr_same (s : State) (dr : RegIdx) (v : Word) : (s.writeDr dr v).reg dr = v := by
  rw [State.writeDr_eq, State.setCond_reg, State.reg_setReg_same]

theorem State.regsSameBut_writeDr (s : State) (dr : RegIdx) (v : Word) :
    RegsSameBut [dr] s (s.writeDr dr v) := fun r hr => by
  rw [State.writeDr_eq, State.setCond_reg, State.reg_setReg_of_ne s v (List.ne_of_not_mem_cons hr)]

theorem State.flagsShow_writeDr (s : State) (dr : RegIdx) (v : Word) : FlagsShow (s.writeDr dr v) v := by
  rw [State.writeDr_eq, FlagsShow, State.setCond_cond, condOf]

/-- COND shows the word that DR now holds, and everything but DR and COND is as before (R36). -/
theorem State.writeDr_flags_frame (s : State) (dr : RegIdx) (v : Word) :
    FlagsShow (s.writeDr dr v) ((s.writeDr dr v).reg dr) ∧ RegsSameBut [dr] s (s.writeDr dr v) ∧
      (s.writeDr dr v).pc = s.pc ∧ CellsSame s (s.writeDr dr v) ∧ (s.writeDr dr v).console = s.console ∧
      RunSame s (s.writeDr dr v) := by
  refine ⟨?_, s.regsSameBut_writeDr dr v, rfl, fun _ => rfl, rfl, rfl, rfl⟩
  rw [State.reg_writeDr_same]
  exact s.flagsShow_writeDr dr v

/-! ## Each operate instruction as a write of DR -/

theorem exec_addReg (dr sr1 sr2 : RegIdx) (s : State) :
    exec (.addReg dr sr1 sr2) s = .next (s.writeDr dr (s.reg sr1 + s.reg sr2)) := rfl

theorem exec_addImm (dr sr1 : RegIdx) (imm5 : Word) (s : State) :
    exec (.addImm dr sr1 imm5) s = .next (s.writeDr dr (s.reg sr1 + imm5)) := rfl

theorem exec_andReg (dr sr1 sr2 : RegIdx) (s : State) :
    exec (.andReg dr sr1 sr2) s = .next (s.writeDr dr (s.reg sr1 &&& s.reg sr2)) := rfl

theorem exec_andImm (dr sr1 : RegIdx) (imm5 : Word) (s : State) :
    exec (.andImm dr sr1 imm5) s = .next (s.writeDr dr (s.reg sr1 &&& imm5)) := rfl

theorem word_xor_0xFFFF (w : Word) : w ^^^ 0xFFFF#16 = ~~~w := BitVec.xor_allOnes

/-- R114's XOR with 0xFFFF, as the bitwise complement. -/
theorem exec_not (dr sr : RegIdx) (s : State) :
    exec (.not dr sr) s = .next (s.writeDr dr (~~~s.reg sr)) := by
  rw [← word_xor_0xFFFF]; rfl

/-! ## The obligations -/

/-- Settles O21: bit 5 picks the decoder's branch, and both modes write the sum of the old sources to DR. -/
theorem addWritesTheWrappedSum : Obligations.AddWritesTheWrappedSum := by
  unfold Obligations.AddWritesTheWrappedSum
  refine ⟨fun w hop h5 => ?_, fun w hop h5 => ?_, fun dr sr1 sr2 s => ?_, fun dr sr1 imm5 s => ?_⟩
  · rw [decode_add hop, h5]; rfl
  · rw [decode_add hop, h5]; rfl
  · refine ⟨_, exec_addReg dr sr1 sr2 s, ?_, s.writeDr_flags_frame dr _⟩
    rw [State.reg_writeDr_same, BitVec.toNat_add]
  · refine ⟨_, exec_addImm dr sr1 imm5 s, ?_, s.writeDr_flags_frame dr _⟩
    rw [State.reg_writeDr_same, BitVec.toNat_add]

/-- Settles O22: bit 5 picks the decoder's branch, and both modes write the conjunction of the old sources to
DR. -/
theorem andWritesTheConjunction : Obligations.AndWritesTheConjunction := by
  unfold Obligations.AndWritesTheConjunction
  refine ⟨fun w hop h5 => ?_, fun w hop h5 => ?_, fun dr sr1 sr2 s => ?_, fun dr sr1 imm5 s => ?_⟩
  · rw [decode_and hop, h5]; rfl
  · rw [decode_and hop, h5]; rfl
  · refine ⟨_, exec_andReg dr sr1 sr2 s, fun i => ?_, s.writeDr_flags_frame dr _⟩
    rw [State.reg_writeDr_same, BitVec.getLsbD_and]
  · refine ⟨_, exec_andImm dr sr1 imm5 s, fun i => ?_, s.writeDr_flags_frame dr _⟩
    rw [State.reg_writeDr_same, BitVec.getLsbD_and]

/-- Settles O23: the decoder reads no bit of 5:0, and NOT writes the complement of the old source to DR. -/
theorem notWritesTheComplement : Obligations.NotWritesTheComplement := by
  unfold Obligations.NotWritesTheComplement
  refine ⟨fun w hop => decode_not hop, fun dr sr s => ?_⟩
  refine ⟨_, exec_not dr sr s, fun i hi => ?_, s.writeDr_flags_frame dr _⟩
  rw [State.reg_writeDr_same, BitVec.getLsbD_not, decide_eq_true hi, Bool.true_and]

end Sys2Proof.Machine

/-! PROOFS of control transfer (42_control.md): what saving the return address and then jumping does, and from it
JSR. -/

namespace Sys2Proof.Machine

/-! ## The link, then a jump -/

theorem State.reg_linkPc_linkReg (s : State) : s.linkPc.reg linkReg = s.pc := by
  rw [State.linkPc_eq, State.reg_setReg_same]

theorem State.regsSameBut_linkPc (s : State) : RegsSameBut [linkReg] s s.linkPc := fun r hr => by
  rw [State.linkPc_eq, State.reg_setReg_of_ne s s.pc (List.ne_of_not_mem_cons hr)]

/-- A jump after the link leaves everything but R7 and pc as it was before both (R122, R123). -/
theorem State.linkPc_setPc_frame (s : State) (v : Word) :
    RegsSameBut [linkReg] s (s.linkPc.setPc v) ∧ (s.linkPc.setPc v).cond = s.cond ∧
      CellsSame s (s.linkPc.setPc v) ∧ (s.linkPc.setPc v).console = s.console ∧ RunSame s (s.linkPc.setPc v) :=
  ⟨s.regsSameBut_linkPc, rfl, fun _ => rfl, rfl, rfl, rfl⟩

/-- The link leaves pc alone, so JSR's offset is added to the pc that it saved. -/
theorem exec_jsr (off11 : Word) (s : State) :
    exec (.jsr off11) s = .next (s.linkPc.setPc (s.pc + off11)) := rfl

/-! ## The obligations -/

/-- Settles O26: bit 11 picks the decoder's branch, and JSR is the link followed by a jump to pc plus the offset. -/
theorem jsrSavesThePcAndJumps : Obligations.JsrSavesThePcAndJumps := by
  unfold Obligations.JsrSavesThePcAndJumps
  refine ⟨fun w hop h11 => ?_, fun off11 s => ?_⟩
  · rw [decode_jsr hop, h11]; rfl
  · exact ⟨_, exec_jsr off11 s, s.reg_linkPc_linkReg, rfl, s.linkPc_setPc_frame _⟩

end Sys2Proof.Machine

/-! PROOFS of loads, stores and LEA (43_load_store.md): what a load from an address and a store to one do, said once,
and from them each instruction, which only chooses the address. -/

namespace Sys2Proof.Machine

/-! ## What a read leaves alone carries over to what follows it -/

theorem RegsSameBut.of_afterRead {rs : List RegIdx} {s t : State} {a : Word}
    (h : RegsSameBut rs (s.afterRead a) t) : RegsSameBut rs s t := fun r hr =>
  (h r hr).trans (s.afterRead_reg a r)

theorem RunSame.of_afterRead {s t : State} {a : Word} (h : RunSame (s.afterRead a) t) : RunSame s t :=
  ⟨h.1.trans (s.afterRead_run a), h.2.trans (s.afterRead_host a)⟩

/-! ## What `load` does -/

theorem State.load_eq (s : State) (dr : RegIdx) (ea : Word) :
    s.load dr ea = (s.afterRead ea).writeDr dr (s.memRead ea).1 := rfl

theorem State.reg_load_same (s : State) (dr : RegIdx) (ea : Word) :
    (s.load dr ea).reg dr = (s.memRead ea).1 := by
  rw [State.load_eq, State.reg_writeDr_same]

/-- COND shows the word that DR now holds, and every other register, pc, the run state and the schedule are as before
the read (R36). -/
theorem State.load_flags_frame (s : State) (dr : RegIdx) (ea : Word) :
    FlagsShow (s.load dr ea) ((s.load dr ea).reg dr) ∧ RegsSameBut [dr] s (s.load dr ea) ∧
      (s.load dr ea).pc = s.pc ∧ RunSame s (s.load dr ea) := by
  obtain ⟨hflags, hregs, hpc, -, -, hrun⟩ := (s.afterRead ea).writeDr_flags_frame dr (s.memRead ea).1
  exact ⟨hflags, hregs.of_afterRead, hpc.trans (s.afterRead_pc ea), hrun.of_afterRead⟩

/-- A load changes memory and the Console exactly as its read does. -/
theorem State.load_memory_console (s : State) (dr : RegIdx) (ea : Word) :
    CellsSame (s.memRead ea).2 (s.load dr ea) ∧ (s.load dr ea).console = (s.memRead ea).2.console :=
  ⟨fun _ => rfl, rfl⟩

theorem State.load_memory_console_of_ne (s : State) (dr : RegIdx) {ea : Word} (h : ea ≠ kbsrAddr) :
    CellsSame s (s.load dr ea) ∧ (s.load dr ea).console = s.console := by
  simpa only [State.memRead_snd, s.afterRead_of_ne h] using s.load_memory_console dr ea

/-- A load from any address: what R130 and R132 say of theirs. -/
theorem State.load_spec (s : State) (dr : RegIdx) (ea : Word) :
    (s.load dr ea).reg dr = (s.memRead ea).1 ∧ FlagsShow (s.load dr ea) ((s.load dr ea).reg dr) ∧
      RegsSameBut [dr] s (s.load dr ea) ∧ (s.load dr ea).pc = s.pc ∧ RunSame s (s.load dr ea) ∧
      (ea = kbsrAddr → CellsSame s.kbsrPoll (s.load dr ea) ∧ (s.load dr ea).console = s.kbsrPoll.console) ∧
      (ea ≠ kbsrAddr → CellsSame s (s.load dr ea) ∧ (s.load dr ea).console = s.console) := by
  obtain ⟨hflags, hregs, hpc, hrun⟩ := s.load_flags_frame dr ea
  refine ⟨s.reg_load_same dr ea, hflags, hregs, hpc, hrun, fun h => ?_, s.load_memory_console_of_ne dr⟩
  subst h
  simpa only [State.memRead_snd, State.afterRead_kbsr] using s.load_memory_console dr kbsrAddr

/-! ## What `memWrite` does -/

theorem State.memWrite_out (s : State) (a v : Word) :
    (s.memWrite a v).console.out = s.console.out ++ (if a = ddrAddr then [lowByte v] else []) := by
  rw [State.memWrite_console]
  split
  case isTrue => rfl
  case isFalse => exact (List.append_nil _).symm

theorem State.memWrite_inQueue (s : State) (a v : Word) :
    (s.memWrite a v).console.inQueue = s.console.inQueue := by
  rw [State.memWrite_console]; split <;> rfl

theorem State.memWrite_inClosed (s : State) (a v : Word) :
    (s.memWrite a v).console.inClosed = s.console.inClosed := by
  rw [State.memWrite_console]; split <;> rfl

theorem State.memWrite_cell_same (s : State) (a v : Word) : (s.memWrite a v).cell a = v := by
  rw [State.memWrite_cell, if_pos rfl]

theorem State.cellsSameBut_memWrite (s : State) (a v : Word) : CellsSameBut [a] s (s.memWrite a v) := fun b hb => by
  rw [State.memWrite_cell, if_neg (List.ne_of_not_mem_cons hb)]

/-- A store to any address: what R134 and R136 say of theirs. -/
theorem State.memWrite_spec (s : State) (a v : Word) :
    (s.memWrite a v).cell a = v ∧ CellsSameBut [a] s (s.memWrite a v) ∧
      (s.memWrite a v).console.out = s.console.out ++ (if a = ddrAddr then [lowByte v] else []) ∧
      (s.memWrite a v).console.inQueue = s.console.inQueue ∧
      (s.memWrite a v).console.inClosed = s.console.inClosed ∧ (s.memWrite a v).regs = s.regs ∧
      (s.memWrite a v).cond = s.cond ∧ (s.memWrite a v).pc = s.pc ∧ RunSame s (s.memWrite a v) :=
  ⟨s.memWrite_cell_same a v, s.cellsSameBut_memWrite a v, s.memWrite_out a v, s.memWrite_inQueue a v,
    s.memWrite_inClosed a v, s.memWrite_regs a v, s.memWrite_cond a v, s.memWrite_pc a v, s.memWrite_run a v,
    s.memWrite_host a v⟩

/-! ## Each instruction as a load, a store or a write of DR -/

theorem exec_lea (dr : RegIdx) (off9 : Word) (s : State) :
    exec (.lea dr off9) s = .next (s.writeDr dr (s.pc + off9)) := rfl

theorem exec_st (sr : RegIdx) (off9 : Word) (s : State) :
    exec (.st sr off9) s = .next (s.memWrite (s.pc + off9) (s.reg sr)) := rfl

theorem exec_str (sr baseR : RegIdx) (off6 : Word) (s : State) :
    exec (.str sr baseR off6) s = .next (s.memWrite (s.reg baseR + off6) (s.reg sr)) := rfl

theorem exec_ldi_of_memRead {dr : RegIdx} {off9 ptr : Word} {s s₁ : State}
    (h : s.memRead (s.pc + off9) = (ptr, s₁)) : exec (.ldi dr off9) s = .next (s₁.load dr ptr) := by
  rw [exec_ldi, h, State.load_eq]

theorem exec_sti_of_memRead {sr : RegIdx} {off9 ptr : Word} {s s₁ : State}
    (h : s.memRead (s.pc + off9) = (ptr, s₁)) : exec (.sti sr off9) s = .next (s₁.memWrite ptr (s.reg sr)) := by
  rw [exec_sti, ← State.memRead_snd, h]

/-! ## The obligations -/

/-- Settles O29: LDI is a load from the pointer, in the state the pointer read leaves; that read keeps all that the
statement keeps, and away from KBSR the whole state. -/
theorem ldiLoadsThroughThePointer : Obligations.LdiLoadsThroughThePointer := by
  unfold Obligations.LdiLoadsThroughThePointer
  refine ⟨fun w hop => decode_ldi hop, fun dr off9 s s₁ ptr h => ⟨_, exec_ldi_of_memRead h, ?_⟩⟩
  obtain rfl : s₁ = s.afterRead (s.pc + off9) := (congrArg Prod.snd h).symm
  obtain ⟨hflags, hregs, hpc, hrun⟩ := (s.afterRead (s.pc + off9)).load_flags_frame dr ptr
  obtain ⟨hcells, hconsole⟩ := (s.afterRead (s.pc + off9)).load_memory_console dr ptr
  refine ⟨State.reg_load_same _ dr ptr, hflags, hregs.of_afterRead, hpc.trans (s.afterRead_pc _), hrun.of_afterRead,
    hcells, hconsole, fun hne hne' => ?_⟩
  rw [s.afterRead_of_ne hne]
  exact s.load_memory_console_of_ne dr hne'

/-- Settles O33: STI is a store to the pointer, in the state the pointer read leaves; that read keeps all that the
statement keeps, and away from KBSR every cell. -/
theorem stiStoresThroughThePointer : Obligations.StiStoresThroughThePointer := by
  unfold Obligations.StiStoresThroughThePointer
  refine ⟨fun w hop => decode_sti hop, fun sr off9 s s₁ ptr h => ⟨_, exec_sti_of_memRead h, ?_⟩⟩
  obtain rfl : s₁ = s.afterRead (s.pc + off9) := (congrArg Prod.snd h).symm
  obtain ⟨hcell, hcells, hout, hqueue, hclosed, hregs, hcond, hpc, hrun⟩ :=
    (s.afterRead (s.pc + off9)).memWrite_spec ptr (s.reg sr)
  refine ⟨hcell, hcells, fun hne => ?_, ?_, hqueue, hclosed.trans (s.afterRead_inClosed _),
    hregs.trans (s.afterRead_regs _), hcond.trans (s.afterRead_cond _), hpc.trans (s.afterRead_pc _),
    hrun.of_afterRead⟩
  · rw [s.afterRead_of_ne hne]
    exact s.cellsSameBut_memWrite ptr _
  · rw [hout, State.afterRead_out]; rfl

/-- Settles O28: LD is a load from the incremented pc plus the offset. -/
theorem ldLoadsPcRelative : Obligations.LdLoadsPcRelative := by
  unfold Obligations.LdLoadsPcRelative
  exact ⟨fun w hop => decode_ld hop, fun dr off9 s =>
    ⟨s.load dr (s.pc + off9), exec_ld dr off9 s, s.load_spec dr _⟩⟩

/-- Settles O30: LDR is a load from the old base value plus the offset. -/
theorem ldrLoadsBasePlusOffset : Obligations.LdrLoadsBasePlusOffset := by
  unfold Obligations.LdrLoadsBasePlusOffset
  exact ⟨fun w hop => decode_ldr hop, fun dr baseR off6 s =>
    ⟨s.load dr (s.reg baseR + off6), exec_ldr dr baseR off6 s, s.load_spec dr _⟩⟩

/-- Settles O31: LEA writes the address itself to DR, with no read. -/
theorem leaLoadsTheAddress : Obligations.LeaLoadsTheAddress := by
  unfold Obligations.LeaLoadsTheAddress
  exact ⟨fun w hop => decode_lea hop, fun dr off9 s =>
    ⟨_, exec_lea dr off9 s, s.reg_writeDr_same dr _, s.writeDr_flags_frame dr _⟩⟩

/-- Settles O32: ST is a store to the incremented pc plus the offset. -/
theorem stStoresPcRelative : Obligations.StStoresPcRelative := by
  unfold Obligations.StStoresPcRelative
  exact ⟨fun w hop => decode_st hop, fun sr off9 s => ⟨_, exec_st sr off9 s, s.memWrite_spec _ _⟩⟩

/-- Settles O34: STR is a store to the base value plus the offset. -/
theorem strStoresBasePlusOffset : Obligations.StrStoresBasePlusOffset := by
  unfold Obligations.StrStoresBasePlusOffset
  exact ⟨fun w hop => decode_str hop, fun sr baseR off6 s => ⟨_, exec_str sr baseR off6 s, s.memWrite_spec _ _⟩⟩

end Sys2Proof.Machine

/-! PROOFS of the encoding (30_encoding.md): the round trip constructor by constructor, the decoder's answers
opcode by opcode, and the bits that a format does not read. -/

namespace Sys2Proof

/-- Settles O2, by the round-trip lemma of each constructor. -/
theorem decodeOfEncodeGivesTheInstruction : Obligations.DecodeOfEncodeGivesTheInstruction := by
  unfold Obligations.DecodeOfEncodeGivesTheInstruction
  intro i
  cases i with
  | br nzp off9 => exact Laws.RoundTrip.br nzp off9
  | addReg dr sr1 sr2 => exact Laws.RoundTrip.addReg dr sr1 sr2
  | addImm dr sr1 imm5 => exact Laws.RoundTrip.addImm dr sr1 imm5
  | ld dr off9 => exact Laws.RoundTrip.ld dr off9
  | st sr off9 => exact Laws.RoundTrip.st sr off9
  | jsr off11 => exact Laws.RoundTrip.jsr off11
  | jsrr baseR => exact Laws.RoundTrip.jsrr baseR
  | andReg dr sr1 sr2 => exact Laws.RoundTrip.andReg dr sr1 sr2
  | andImm dr sr1 imm5 => exact Laws.RoundTrip.andImm dr sr1 imm5
  | ldr dr baseR off6 => exact Laws.RoundTrip.ldr dr baseR off6
  | str sr baseR off6 => exact Laws.RoundTrip.str sr baseR off6
  | rti word => exact Laws.RoundTrip.rti word
  | not dr sr => exact Laws.RoundTrip.not dr sr
  | ldi dr off9 => exact Laws.RoundTrip.ldi dr off9
  | sti sr off9 => exact Laws.RoundTrip.sti sr off9
  | jmp baseR => exact Laws.RoundTrip.jmp baseR
  | res word => exact Laws.RoundTrip.res word
  | lea dr off9 => exact Laws.RoundTrip.lea dr off9
  | trap v => exact Laws.RoundTrip.trap v
  | ret => exact Laws.RoundTrip.ret
  | trapGetc => exact Laws.RoundTrip.trapGetc
  | trapOut => exact Laws.RoundTrip.trapOut
  | trapPuts => exact Laws.RoundTrip.trapPuts
  | trapIn => exact Laws.RoundTrip.trapIn
  | trapPutsp => exact Laws.RoundTrip.trapPutsp
  | trapHalt => exact Laws.RoundTrip.trapHalt

/-! ## The decoder's answers are well-formed -/

theorem exists_opcodeBits (w : Word) : ∃ op, bitField w 12 4 = opcodeBits op :=
  ⟨opcodeOf (bitField w 12 4), (opcodeBits_opcodeOf _).symm⟩

theorem wellFormed_serviceInstr (k : Service) : wellFormed (serviceInstr k) = true := by cases k <;> rfl

theorem wellFormed_decodeTrap (v : Byte) : wellFormed (decodeTrap v) = true := by
  unfold decodeTrap
  split
  case h_1 k _ => exact wellFormed_serviceInstr k
  case h_2 h => exact Option.isNone_iff_eq_none.mpr h

theorem wellFormed_decodeJump (baseR : RegIdx) : wellFormed (decodeJump baseR) = true := by
  unfold decodeJump
  split
  case isTrue => rfl
  case isFalse h => exact bne_iff_ne.mpr h

/-- Settles O3, opcode by opcode: an offset is a sign extension, and a reserved word's opcode is the one that chose
its case. -/
theorem everyWordDecodesWellFormed : Obligations.EveryWordDecodesWellFormed := by
  unfold Obligations.EveryWordDecodesWellFormed
  intro w
  obtain ⟨op, hop⟩ := exists_opcodeBits w
  cases op with
  | br => rw [decode_br hop]; exact fitsSigned_sext (by decide) _
  | add =>
    rw [decode_add hop]
    split <;> [exact fitsSigned_sext (by decide) _; rfl]
  | ld => rw [decode_ld hop]; exact fitsSigned_sext (by decide) _
  | st => rw [decode_st hop]; exact fitsSigned_sext (by decide) _
  | jsr =>
    rw [decode_jsr hop]
    split <;> [exact fitsSigned_sext (by decide) _; rfl]
  | and =>
    rw [decode_and hop]
    split <;> [exact fitsSigned_sext (by decide) _; rfl]
  | ldr => rw [decode_ldr hop]; exact fitsSigned_sext (by decide) _
  | str => rw [decode_str hop]; exact fitsSigned_sext (by decide) _
  | rti => rw [decode_rti hop]; exact beq_iff_eq.mpr hop
  | not => rw [decode_not hop]; rfl
  | ldi => rw [decode_ldi hop]; exact fitsSigned_sext (by decide) _
  | sti => rw [decode_sti hop]; exact fitsSigned_sext (by decide) _
  | jmp => rw [decode_jmp hop]; exact wellFormed_decodeJump _
  | res => rw [decode_res hop]; exact beq_iff_eq.mpr hop
  | lea => rw [decode_lea hop]; exact fitsSigned_sext (by decide) _
  | trap => rw [decode_trap hop]; exact wellFormed_decodeTrap _

/-- Settles O1: fourteen closed words, evaluated. -/
theorem wordsWrittenFromTheFormatsDecode : Obligations.WordsWrittenFromTheFormatsDecode := by
  unfold Obligations.WordsWrittenFromTheFormatsDecode
  decide

/-! ## The bits a format ignores -/

/-- Words that agree on a field agree on every bit of it. -/
theorem getLsbD_eq_of_bitField_eq {w w' : Word} {lo n i : Nat} (h : bitField w lo n = bitField w' lo n)
    (hlo : lo ≤ i) (hhi : i < lo + n) : w.getLsbD i = w'.getLsbD i := by
  have hbit := congrArg (fun v => v.getLsbD (i - lo)) h
  simpa only [bitField, BitVec.getLsbD_extractLsb', Nat.add_sub_cancel' hlo, Nat.sub_lt_left_of_lt_add hlo hhi,
    decide_true, Bool.true_and] using hbit

/-- Words that agree on a field agree on every field inside it. -/
theorem bitField_eq_of_bitField_eq {w w' : Word} {lo n lo' n' : Nat} (h : bitField w lo n = bitField w' lo n)
    (hlo : lo ≤ lo') (hhi : lo' + n' ≤ lo + n) : bitField w lo' n' = bitField w' lo' n' := by
  refine BitVec.eq_of_getLsbD_eq fun i hi => ?_
  rw [bitField, bitField, BitVec.getLsbD_extractLsb', BitVec.getLsbD_extractLsb',
    getLsbD_eq_of_bitField_eq h (by omega) (by omega)]

end Sys2Proof

namespace Sys2Proof.Machine

/-! ## The reserved opcodes -/

theorem exec_rti (w : Word) (s : State) : exec (.rti w) s = .next (s.setRun (.faulted
    { cause := .reservedOpcode, addr := s.pc - 1#16, instr := w, detail := .opcode 0b1000#4 })) := rfl

theorem exec_res (w : Word) (s : State) : exec (.res w) s = .next (s.setRun (.faulted
    { cause := .reservedOpcode, addr := s.pc - 1#16, instr := w, detail := .opcode 0b1101#4 })) := rfl

/-! ## The obligations -/

/-- Settles O4: each clause's hypotheses give all the fields its decoder branch reads, and a reserved word reaches
the fault record as `instr` only. -/
theorem ignoredBitsDoNotChangeTheInstruction : Obligations.IgnoredBitsDoNotChangeTheInstruction := by
  unfold Obligations.IgnoredBitsDoNotChangeTheInstruction
  intro w w' hop'
  refine ⟨fun hop hmid h5 hlow => ?_, fun hop hfields => ?_, fun hop hbase => ?_, fun hop h11 h11' hbase => ?_,
    fun hop hvect => ?_, fun hop s => ?_⟩
  · have h9 : bitField w 9 3 = bitField w' 9 3 := bitField_eq_of_bitField_eq hmid (by decide) (by decide)
    have h6 : bitField w 6 3 = bitField w' 6 3 := bitField_eq_of_bitField_eq hmid (by decide) (by decide)
    have h5' : w'.getLsbD 5 = false := (getLsbD_eq_of_bitField_eq hmid (by decide) (by decide)).symm.trans h5
    have h0 : bitField w 0 3 = bitField w' 0 3 := hlow
    rcases hop with hop | hop
    · rw [decode_add hop, decode_add (hop'.symm.trans hop), h5, h5', h9, h6, h0]; rfl
    · rw [decode_and hop, decode_and (hop'.symm.trans hop), h5, h5', h9, h6, h0]; rfl
  · have h9 : bitField w 9 3 = bitField w' 9 3 := bitField_eq_of_bitField_eq hfields (by decide) (by decide)
    have h6 : bitField w 6 3 = bitField w' 6 3 := bitField_eq_of_bitField_eq hfields (by decide) (by decide)
    rw [decode_not hop, decode_not (hop'.symm.trans hop), h9, h6]
  · rw [decode_jmp hop, decode_jmp (hop'.symm.trans hop)]
    exact congrArg decodeJump hbase
  · rw [decode_jsr hop, decode_jsr (hop'.symm.trans hop), h11, h11']
    exact congrArg Instr.jsrr hbase
  · rw [decode_trap hop, decode_trap (hop'.symm.trans hop)]
    exact congrArg decodeTrap hvect
  · rcases hop with hop | hop
    · rw [decode_rti hop, decode_rti (hop'.symm.trans hop), exec_rti, exec_rti]
      exact ⟨s, ⟨_, _, 0#16, _⟩, rfl, rfl⟩
    · rw [decode_res hop, decode_res (hop'.symm.trans hop), exec_res, exec_res]
      exact ⟨s, ⟨_, _, 0#16, _⟩, rfl, rfl⟩

/-- Settles O44: the opcode alone picks the decoder's branch, and the fault entry writes `run` only. -/
theorem reservedOpcodesFault : Obligations.ReservedOpcodesFault := by
  unfold Obligations.ReservedOpcodesFault
  exact ⟨rfl, fun w hop => decode_rti hop, fun w hop => decode_res hop,
    fun w s => ⟨_, exec_rti w s, rfl, rfl, rfl, rfl, fun _ => rfl, rfl, rfl⟩,
    fun w s => ⟨_, exec_res w s, rfl, rfl, rfl, rfl, fun _ => rfl, rfl, rfl⟩⟩

end Sys2Proof.Machine

/-! PROOFS of memory, image load and launch (10_state.md section 4, 70_reset_and_hazards.md): the canonical form is
kept by every step and determined by its cells, and what the images of a launch leave. -/

namespace Sys2Proof.Machine

/-! ## The canonical form -/

theorem completeWait_mem (s : State) (k : WaitKind) : (s.completeWait k).mem = s.mem := by
  rcases completeWait_cases s k with ⟨b, rest, -, h⟩ | ⟨-, -, h⟩ | ⟨-, -, h⟩ <;> rw [h] <;> rfl

/-- An instruction changes memory by its stores and polls only, and both keep the canonical form. -/
theorem exec_memoryCanonical {i : Instr} {s t : State} (h : exec i s = .next t) (hs : MemoryCanonical s) :
    MemoryCanonical t :=
  exec_keeps (P := MemoryCanonical) h (fun _ _ _ _ hu => hu) (fun _ _ _ hu => hu) (fun _ _ _ hu => hu)
    (fun _ _ a v hu => State.memWrite_wf a v hu) (fun _ a hu => State.afterRead_wf a hu) (fun _ _ hu => hu)
    (fun _ _ hu => hu) hs

/-- Settles O56: a step executes an instruction after a fetch, completes a wait, or lets the host move, and each
keeps the canonical form. -/
theorem stepKeepsMemoryCanonical : Obligations.StepKeepsMemoryCanonical := by
  unfold Obligations.StepKeepsMemoryCanonical
  intro s t hs hstep
  have hturn : MemoryCanonical s.hostTurn := by rw [MemoryCanonical, State.hostTurn_mem]; exact hs
  rcases step_cases hstep with ⟨-, w, hexec, -⟩ | ⟨k, -, -, rfl⟩ | ⟨k, -, -, -, rfl⟩
  · exact exec_memoryCanonical hexec (State.afterRead_wf s.pc hturn)
  · rw [MemoryCanonical, completeWait_mem]; exact hturn
  · exact hturn

/-- Settles O54: the empty memory is canonical. -/
theorem resetMemoryIsCanonical : Obligations.ResetMemoryIsCanonical := by
  unfold Obligations.ResetMemoryIsCanonical
  rfl

theorem Memory.get_cons_self (k : Nat) (w : Word) (m : Memory) : Memory.get ((k, w) :: m) k = w := if_pos rfl

theorem Memory.get_cons_of_ne {k a : Nat} (w : Word) (m : Memory) (h : k ≠ a) :
    Memory.get ((k, w) :: m) a = Memory.get m a := if_neg h

/-- The first entry of a canonical memory tells it from every canonical memory that begins at a greater address. -/
theorem Memory.exists_get_ne {m m' : Memory} {lo k : Nat} {w : Word}
    (h : Memory.wfFrom lo ((k, w) :: m) = true) (h' : Memory.wfFrom (k + 1) m' = true) :
    ∃ a < 65536, Memory.get ((k, w) :: m) a ≠ Memory.get m' a := by
  obtain ⟨-, hk, hw, -⟩ := (Memory.wfFrom_cons ..).mp h
  refine ⟨k, hk, ?_⟩
  rw [Memory.get_cons_self, Memory.get_of_lt h' (Nat.lt_succ_self k)]
  exact hw

/-- Canonical memories that agree on every address are equal: their first entries are at the same address and hold
the same word, and the rests agree. -/
theorem Memory.eq_of_get_eq {m m' : Memory} {lo lo' : Nat} (h : Memory.wfFrom lo m = true)
    (h' : Memory.wfFrom lo' m' = true) (heq : ∀ a < 65536, Memory.get m a = Memory.get m' a) : m = m' := by
  induction m generalizing m' lo lo' with
  | nil =>
    cases m' with
    | nil => rfl
    | cons e m' =>
      obtain ⟨a, ha, hne⟩ := Memory.exists_get_ne (m' := []) h' rfl
      exact absurd (heq a ha).symm hne
  | cons e m ih =>
    obtain ⟨k, w⟩ := e
    cases m' with
    | nil =>
      obtain ⟨a, ha, hne⟩ := Memory.exists_get_ne (m' := []) h rfl
      exact absurd (heq a ha) hne
    | cons e' m' =>
      obtain ⟨k', w'⟩ := e'
      obtain ⟨-, hk, hw, hm⟩ := (Memory.wfFrom_cons ..).mp h
      obtain ⟨-, hk', hw', hm'⟩ := (Memory.wfFrom_cons ..).mp h'
      rcases Nat.lt_trichotomy k k' with hlt | rfl | hgt
      · obtain ⟨a, ha, hne⟩ := Memory.exists_get_ne h ((Memory.wfFrom_cons ..).mpr ⟨hlt, hk', hw', hm'⟩)
        exact absurd (heq a ha) hne
      · have hww : w = w' := by simpa only [Memory.get_cons_self] using heq k hk
        have hrest : ∀ a < 65536, Memory.get m a = Memory.get m' a := fun a ha => by
          by_cases hka : k = a
          · subst hka
            rw [Memory.get_of_lt hm (Nat.lt_succ_self k), Memory.get_of_lt hm' (Nat.lt_succ_self k)]
          · simpa only [Memory.get_cons_of_ne _ _ hka] using heq a ha
        rw [hww, ih hm hm' hrest]
      · obtain ⟨a, ha, hne⟩ := Memory.exists_get_ne h' ((Memory.wfFrom_cons ..).mpr ⟨hgt, hk, hw, hm⟩)
        exact absurd (heq a ha).symm hne

/-- Settles O20, by the uniqueness of canonical memories: the addresses below 65,536 are the words. -/
theorem canonicalMemoriesWithEqualCellsAreEqual : Obligations.CanonicalMemoriesWithEqualCellsAreEqual := by
  unfold Obligations.CanonicalMemoriesWithEqualCellsAreEqual
  intro m m' hm hm' heq
  refine Memory.eq_of_get_eq hm hm' fun a ha => ?_
  simpa only [BitVec.toNat_ofNat, Nat.mod_eq_of_lt ha] using heq (BitVec.ofNat 16 a)

/-! ## The image load -/

theorem Image.fits_iff {im : Image} : im.fits = true ↔ im.origin.toNat + im.words.length ≤ 65536 := decide_eq_true_iff

theorem State.loadImage_of_fits (s : State) {im : Image} (h : im.fits = true) :
    s.loadImage im = .next (s.setMem (Memory.copyWords s.mem im.origin.toNat im.words)) := if_pos h

theorem State.loadImage_of_not_fits (s : State) {im : Image} (h : ¬im.fits = true) :
    s.loadImage im = .refused (.loadFailure im.origin) := if_neg h

theorem State.loadImages_cons_of_fits (s : State) {im : Image} (ims : List Image) (h : im.fits = true) :
    State.loadImages (im :: ims) s =
      State.loadImages ims (s.setMem (Memory.copyWords s.mem im.origin.toNat im.words)) := by
  rw [State.loadImages, s.loadImage_of_fits h]

theorem State.loadImages_cons_of_not_fits (s : State) {im : Image} (ims : List Image) (h : ¬im.fits = true) :
    State.loadImages (im :: ims) s = .refused (.loadFailure im.origin) := by
  rw [State.loadImages, s.loadImage_of_not_fits h]

/-- Images that fit change memory only, and every cell holds the word of the last image that covers it, or what it
held before (R211). -/
theorem State.loadImages_of_fits {ims : List Image} (h : ∀ im ∈ ims, im.fits = true) (s : State) :
    ∃ m, State.loadImages ims s = .next (s.setMem m) ∧
      ∀ a : Word, (s.setMem m).cell a = (ims.reverse.findSome? (fun im => im.wordAt a)).getD (s.cell a) := by
  induction ims generalizing s with
  | nil => exact ⟨s.mem, rfl, fun _ => rfl⟩
  | cons im ims ih =>
    obtain ⟨him, hims⟩ := List.forall_mem_cons.mp h
    obtain ⟨m, hload, hcells⟩ := ih hims (s.setMem (Memory.copyWords s.mem im.origin.toNat im.words))
    refine ⟨m, (s.loadImages_cons_of_fits ims him).trans hload, fun a => (hcells a).trans ?_⟩
    rw [State.loadImage_cell (s.loadImage_of_fits him), List.reverse_cons, List.findSome?_append,
      List.findSome?_singleton, Option.getD_or]

/-- An image that does not fit refuses the load, wherever it stands in the list (R213). -/
theorem State.loadImages_of_not_fits {ims : List Image} (h : ∃ im ∈ ims, ¬im.fits = true) (s : State) :
    ∃ o, State.loadImages ims s = .refused (.loadFailure o) := by
  induction ims generalizing s with
  | nil => simp at h
  | cons im ims ih =>
    by_cases him : im.fits = true
    · rw [s.loadImages_cons_of_fits ims him]
      exact ih (by simpa only [List.exists_mem_cons_iff, him, not_true_eq_false, false_or] using h) _
    · exact ⟨im.origin, s.loadImages_cons_of_not_fits ims him⟩

theorem State.loadImages_memoryCanonical {ims : List Image} {s t : State} (h : State.loadImages ims s = .next t)
    (hs : MemoryCanonical s) : MemoryCanonical t := by
  induction ims generalizing s with
  | nil => cases h; exact hs
  | cons im ims ih =>
    by_cases him : im.fits = true
    · rw [s.loadImages_cons_of_fits ims him] at h
      exact ih h (Memory.copyWords_wf hs (Image.fits_iff.mp him))
    · rw [s.loadImages_cons_of_not_fits ims him] at h
      cases h

/-! ## The launch -/

theorem Launch.resetState_reg (l : Launch) (r : RegIdx) : l.resetState.reg r = 0x0000#16 :=
  Vector.getElem_replicate r.isLt

/-- Settles O55: reset memory is canonical, and the load of an image that fits keeps it so. -/
theorem launchedMemoryIsCanonical : Obligations.LaunchedMemoryIsCanonical := by
  unfold Obligations.LaunchedMemoryIsCanonical
  intro l t h
  exact State.loadImages_memoryCanonical h rfl

/-- Settles O7: the load changes memory only, and the cells before it are the reset contents. -/
theorem loadedImagesFillTheirCells : Obligations.LoadedImagesFillTheirCells := by
  unfold Obligations.LoadedImagesFillTheirCells
  intro l hfits
  obtain ⟨m, hload, hcells⟩ :=
    State.loadImages_of_fits (fun im him => Image.fits_iff.mpr (hfits im him)) l.resetState
  exact ⟨_, hload, hcells, rfl⟩

/-- Settles O6: the load changes memory only, so all else is as reset leaves it, and so is a cell that no image
covers. -/
theorem resetLeavesTheSpecValues : Obligations.ResetLeavesTheSpecValues := by
  unfold Obligations.ResetLeavesTheSpecValues
  refine ⟨fun l hfits => ?_, rfl⟩
  obtain ⟨m, hload, hcells⟩ :=
    State.loadImages_of_fits (fun im him => Image.fits_iff.mpr (hfits im him)) l.resetState
  refine ⟨_, hload, l.resetState_reg, rfl, rfl, rfl, rfl, rfl, rfl, fun a hnone => ?_⟩
  have hfind : l.images.reverse.findSome? (fun im => im.wordAt a) = none :=
    List.findSome?_eq_none_iff.mpr fun im him => hnone im (List.mem_reverse.mp him)
  rw [hcells, hfind]
  rfl

/-- Settles O8: the first image that does not fit is the one the refusal names. -/
theorem imagePastTheEndRefusesTheLaunch : Obligations.ImagePastTheEndRefusesTheLaunch := by
  unfold Obligations.ImagePastTheEndRefusesTheLaunch
  intro l hpast
  obtain ⟨im, him, hlong⟩ := hpast
  exact State.loadImages_of_not_fits ⟨im, him, fun hfits => absurd (Image.fits_iff.mp hfits) (Nat.not_le.mpr hlong)⟩ _

end Sys2Proof.Machine

/-! PROOFS of MemRead, MemWrite and KbsrPoll (20_memory.md section 2), and of the coherence of fetch with stores
(20_memory.md section 5). -/

namespace Sys2Proof.Machine

theorem State.kbsrPoll_of_cons {s : State} {b : Byte} {rest : List Byte} (h : s.console.inQueue = b :: rest) :
    s.kbsrPoll = ((s.setConsole { s.console with inQueue := rest }).setCell kbsrAddr 0x8000#16).setCell kbdrAddr
      (zext b) := by
  rcases s.kbsrPoll_cases with ⟨b', rest', h', e⟩ | ⟨h', -⟩ <;> rw [h] at h' <;> cases h'
  exact e

theorem State.kbsrPoll_of_nil {s : State} (h : s.console.inQueue = []) :
    s.kbsrPoll = s.setCell kbsrAddr 0x0000#16 := by
  rcases s.kbsrPoll_cases with ⟨b', rest', h', -⟩ | ⟨-, e⟩
  · rw [h] at h'; cases h'
  · exact e

/-- Settles O18: the poll as its two updates, with a byte queued and with none. -/
theorem kbsrPollUpdatesTheKeyboardRegisters : Obligations.KbsrPollUpdatesTheKeyboardRegisters := by
  unfold Obligations.KbsrPollUpdatesTheKeyboardRegisters
  intro s
  refine ⟨fun r _ => s.kbsrPoll_reg r, s.kbsrPoll_pc, s.kbsrPoll_cond, ⟨s.kbsrPoll_run, s.kbsrPoll_host⟩,
    fun a ha => ?_, fun b rest hq => ?_, fun hq => ?_⟩
  · obtain ⟨hkbsr, hrest⟩ := List.ne_and_not_mem_of_not_mem_cons ha
    exact s.kbsrPoll_cell_of_ne hkbsr (List.ne_of_not_mem_cons hrest)
  · rw [State.kbsrPoll_of_cons hq]
    refine ⟨?_, State.cell_setCell_same _ _ _, rfl⟩
    exact (State.cell_setCell_of_ne _ _ kbdrAddr_ne_kbsrAddr.symm).trans (State.cell_setCell_same _ _ _)
  · rw [State.kbsrPoll_of_nil hq]
    exact ⟨State.cell_setCell_same _ _ _, State.cell_setCell_of_ne _ _ kbdrAddr_ne_kbsrAddr, rfl⟩

theorem State.memRead_of_ne (s : State) {a : Word} (h : a ≠ kbsrAddr) : s.memRead a = (s.cell a, s) := by
  rw [State.memRead, s.afterRead_of_ne h]

/-- Settles O17, by the two cases of the state a read leaves. -/
theorem memReadPollsOnlyAtKbsr : Obligations.MemReadPollsOnlyAtKbsr := by
  unfold Obligations.MemReadPollsOnlyAtKbsr
  exact ⟨fun s => rfl, fun s a ha => s.memRead_of_ne ha⟩

/-- Settles O19, by what a store to any address does. -/
theorem memWriteStoresAndEmitsAtDdr : Obligations.MemWriteStoresAndEmitsAtDdr := by
  unfold Obligations.MemWriteStoresAndEmitsAtDdr
  intro s a v
  exact ⟨s.memWrite_cell_same a v, s.cellsSameBut_memWrite a v, fun ha => (s.memWrite_console a v).trans (if_pos ha),
    fun ha => (s.memWrite_console a v).trans (if_neg ha), fun r _ => s.memWrite_reg a v r, s.memWrite_pc a v,
    s.memWrite_cond a v, s.memWrite_run a v, s.memWrite_host a v⟩

/-! ## Fetch after a store -/

/-- A word stored at pc, away from KBSR, is what the next step executes (R67). -/
theorem step_memWrite_pc {u : State} (hrun : u.run = .running) (hpc : u.pc ≠ kbsrAddr) (v : Word) :
    step (u.memWrite u.pc v) = exec (decode v) ((u.memWrite u.pc v).hostTurn.setPc (u.pc + 1#16)) := by
  have h := step_running_of_ne (s := u.memWrite u.pc v) ((u.memWrite_run _ _).trans hrun)
    ((u.memWrite_pc _ _).symm ▸ hpc)
  rwa [State.memWrite_pc, State.memWrite_cell_same] at h

/-- Settles O35: each of the three stores is a write at the incremented pc, in a state that is RUNNING there. -/
theorem storedWordIsTheNextInstruction : Obligations.StoredWordIsTheNextInstruction := by
  unfold Obligations.StoredWordIsTheNextInstruction
  intro s t sr hrun hpc hpc' hdecode hstep
  rw [step_running_of_ne hrun hpc] at hstep
  obtain ⟨u, hurun, hupc, rfl⟩ : ∃ u : State, u.run = .running ∧ u.pc = s.pc + 1#16 ∧
      t = u.memWrite u.pc (s.reg sr) := by
    rcases hdecode with h | ⟨off9, h, hptr⟩ | ⟨baseR, off6, h, haddr⟩ <;> rw [h] at hstep
    · rw [exec_st] at hstep
      cases hstep
      refine ⟨s.hostTurn.setPc (s.pc + 1#16), s.hostTurn_run.trans hrun, rfl, ?_⟩
      rw [State.setPc_reg, State.hostTurn_reg, BitVec.add_zero]
    · rw [exec_sti, State.setPc_pc, State.memRead_setPc, hptr] at hstep
      cases hstep
      refine ⟨(s.hostTurn.setPc (s.pc + 1#16)).afterRead (s.pc + 1#16 + off9), ?_, State.afterRead_pc _ _, ?_⟩
      · rw [State.afterRead_run, State.setPc_run, State.hostTurn_run, hrun]
      · rw [State.afterRead_pc, State.setPc_pc, State.setPc_reg, State.hostTurn_reg]
    · rw [exec_str, State.setPc_reg, State.setPc_reg, State.hostTurn_reg, State.hostTurn_reg, haddr] at hstep
      cases hstep
      exact ⟨s.hostTurn.setPc (s.pc + 1#16), s.hostTurn_run.trans hrun, rfl, rfl⟩
  rw [step_memWrite_pc hurun (hupc ▸ hpc'), hupc, BitVec.add_assoc]
  rfl

end Sys2Proof.Machine

/-! PROOFS of the step (40_execution_loop.md) and of the host's turn before it (60_exceptions.md section 4): what a
turn makes of the Console, the step in each run state, and the completions of GETC and IN. -/

namespace Sys2Proof.Machine

/-! ## The moves of a host turn -/

theorem Console.hostMove_input_of_closed {c : Console} (h : c.inClosed = true) (b : Byte) :
    c.hostMove (.input b) = c := if_pos h

theorem Console.hostMove_input_of_open {c : Console} (h : ¬c.inClosed = true) (b : Byte) :
    c.hostMove (.input b) = { c with inQueue := c.inQueue ++ [b] } := if_neg h

/-- Input is closed after a turn if it was before, or if the turn closes it. -/
theorem Console.hostMoves_inClosed (c : Console) (ms : List HostMove) :
    (c.hostMoves ms).inClosed = (c.inClosed || ms.contains .close) := by
  induction ms generalizing c with
  | nil => simp
  | cons m ms ih =>
    rw [Console.hostMoves_cons, ih]
    cases m with
    | input b => by_cases hc : c.inClosed = true <;> simp [Console.hostMove, hc]
    | close => simp [Console.hostMove]

/-- Once input is closed no move queues a byte (log 6). -/
theorem Console.hostMoves_inQueue_of_closed {c : Console} (h : c.inClosed = true) (ms : List HostMove) :
    (c.hostMoves ms).inQueue = c.inQueue := by
  induction ms generalizing c with
  | nil => rfl
  | cons m ms ih =>
    rw [Console.hostMoves_cons]
    cases m with
    | input b => rw [Console.hostMove_input_of_closed h, ih h]
    | close => exact ih rfl

/-- While input is open the turn's bytes are queued in order, up to its first close. -/
theorem Console.hostMoves_inQueue_of_open {c : Console} (h : ¬c.inClosed = true) (ms : List HostMove) :
    (c.hostMoves ms).inQueue = c.inQueue ++ (ms.takeWhile (· != .close)).filterMap HostMove.byte := by
  induction ms generalizing c with
  | nil => simp
  | cons m ms ih =>
    rw [Console.hostMoves_cons]
    cases m with
    | input b =>
      rw [Console.hostMove_input_of_open h]
      refine (ih (c := { c with inQueue := c.inQueue ++ [b] }) h).trans ?_
      simp [HostMove.byte]
    | close => exact (Console.hostMoves_inQueue_of_closed rfl ms).trans (List.append_nil _).symm

/-- Settles O11, by the moves of a turn, with input open or closed before it. -/
theorem hostTurnMakesOnlyHostMoves : Obligations.HostTurnMakesOnlyHostMoves := by
  unfold Obligations.HostTurnMakesOnlyHostMoves
  intro s
  refine ⟨s.hostTurn_regs, s.hostTurn_pc, s.hostTurn_cond, s.hostTurn_mem, s.hostTurn_run, s.hostTurn_out,
    fun ms rest hhost => ?_⟩
  rw [State.hostTurn_of_cons hhost]
  refine ⟨rfl, s.console.hostMoves_inClosed ms, ?_⟩
  split
  case isTrue hc => exact (Console.hostMoves_inQueue_of_closed hc ms).trans (List.append_nil _).symm
  case isFalse hc => exact Console.hostMoves_inQueue_of_open hc ms

/-! ## The step in RUNNING -/

/-- Settles O9: the step's fetch, whose pc the host's turn leaves. -/
theorem stepRunsTheDecodedInstruction : Obligations.StepRunsTheDecodedInstruction := by
  unfold Obligations.StepRunsTheDecodedInstruction
  intro s hrun
  refine ⟨?_, s.hostTurn_pc, State.hostTurn_of_nil, step_running_of_ne hrun⟩
  rw [State.hostTurn_pc]
  exact step_running hrun

theorem State.placeablePc_of_ne {s : State} (h : s.pc ≠ kbsrAddr) : s.placeablePc = s.pc := if_neg h

theorem State.placeablePc_ne_kbsrAddr (s : State) : s.placeablePc ≠ kbsrAddr := by
  unfold State.placeablePc
  split
  case isTrue => decide
  case isFalse h => exact h

theorem State.withFetchWord_toNat (s : State) (w : Word) : s.withFetchWord 16 w.toNat = s.placeWord w := by
  rw [State.withFetchWord, Nat.mod_eq_of_lt w.isLt, BitVec.ofNat_toNat, BitVec.setWidth_eq]

theorem State.placeWord_pc (s : State) (w : Word) : (s.placeWord w).pc = s.placeablePc := rfl

theorem State.placeWord_cell_pc (s : State) (w : Word) : (s.placeWord w).cell (s.placeWord w).pc = w :=
  State.cell_setCell_same _ _ _

theorem State.placeWord_cell_of_ne (s : State) (w : Word) {a : Word} (h : a ≠ s.placeablePc) :
    (s.placeWord w).cell a = s.cell a := State.cell_setCell_of_ne _ _ h

/-- Settles O10: the word is placed in the cell at pc, away from KBSR, where the next fetch reads it. -/
theorem placedWordIsTheNextInstruction : Obligations.PlacedWordIsTheNextInstruction := by
  unfold Obligations.PlacedWordIsTheNextInstruction
  intro s w
  rw [State.withFetchWord_toNat]
  have hstep := step_running_of_ne (s := s.placeWord w) rfl s.placeablePc_ne_kbsrAddr
  rw [State.placeWord_cell_pc] at hstep
  refine ⟨(s.placeWord w).hostTurn.setPc ((s.placeWord w).pc + 1#16), rfl, hstep, fun hpc => ?_,
    (s.placeWord w).hostTurn_regs, (s.placeWord w).hostTurn_cond, (s.placeWord w).hostTurn_run, fun a ha => ?_⟩
  · rw [State.setPc_pc, State.placeWord_pc, State.placeablePc_of_ne hpc]
  · exact ((s.placeWord w).hostTurn_cell a).trans (s.placeWord_cell_of_ne w (List.ne_of_not_mem_cons ha))

/-- A step whose pc is 0xFE00 executes what the poll leaves in KBSR (R68). -/
theorem step_running_kbsr {s : State} (hrun : s.run = .running) (hpc : s.pc = kbsrAddr) :
    step s = exec (decode (s.hostTurn.kbsrPoll.cell kbsrAddr)) (s.hostTurn.kbsrPoll.setPc 0xFE01#16) := by
  rw [step_running hrun, hpc, State.memRead_fst, State.memRead_snd, State.afterRead_kbsr]
  rfl

/-- An empty mask meets no flag, so the word 0x0000 does nothing (R120). -/
theorem exec_br_zero (off9 : Word) (s : State) : exec (.br 0#3 off9) s = .next s := by
  have hnot : ¬s.branchTaken 0#3 = true := by simp [State.branchTaken]
  exact congrArg Host.Outcome.next (if_neg hnot)

/-- Settles O12: the poll leaves 0x8000, a reserved word, or 0x0000, a branch that is never taken. -/
theorem fetchAtKbsrPolls : Obligations.FetchAtKbsrPolls := by
  unfold Obligations.FetchAtKbsrPolls
  intro s hrun hpc
  obtain ⟨-, -, -, -, hcells, hchar, hnone⟩ := kbsrPollUpdatesTheKeyboardRegisters s.hostTurn
  have hregs : s.hostTurn.kbsrPoll.regs = s.regs := (State.kbsrPoll_regs _).trans s.hostTurn_regs
  have hcond : s.hostTurn.kbsrPoll.cond = s.cond := (State.kbsrPoll_cond _).trans s.hostTurn_cond
  have hrun' : s.hostTurn.kbsrPoll.run = .running := (State.kbsrPoll_run _).trans (s.hostTurn_run.trans hrun)
  have hhost : s.hostTurn.kbsrPoll.host = s.host.tail := (State.kbsrPoll_host _).trans s.hostTurn_host
  rw [step_running_kbsr hrun hpc]
  refine ⟨fun b rest hq => ?_, fun hq => ?_⟩
  · obtain ⟨hkbsr, hkbdr, hconsole⟩ := hchar b rest hq
    have haddr : 0xFE01#16 - 1#16 = 0xFE00#16 := by decide
    rw [show s.hostTurn.kbsrPoll.cell kbsrAddr = 0x8000#16 from hkbsr, decode_rti (by decide), exec_rti,
      State.setPc_pc, haddr]
    exact ⟨_, rfl, rfl, rfl, hkbsr, hkbdr, hconsole, hregs, hcond,
      fun a ha => (hcells a ha).trans (s.hostTurn_cell a), hhost⟩
  · obtain ⟨hkbsr, -, hconsole⟩ := hnone hq
    have hdecode : decode 0x0000#16 = .br 0#3 0x0000#16 := by decide
    rw [show s.hostTurn.kbsrPoll.cell kbsrAddr = 0x0000#16 from hkbsr, hdecode, exec_br_zero]
    refine ⟨_, rfl, hrun', rfl, hkbsr, hconsole, hregs, hcond, fun a ha => ?_, hhost⟩
    rw [State.setPc_cell, State.kbsrPoll_of_nil hq]
    exact (State.cell_setCell_of_ne _ _ (List.ne_of_not_mem_cons ha)).trans (s.hostTurn_cell a)

/-! ## HALTED, FAULTED and a hold -/

theorem step_halted {s : State} (h : s.run = .halted) : step s = .fault .halted := by
  simp only [step, h]

theorem step_faulted {s : State} {r : FaultRecord} (h : s.run = .faulted r) : step s = .fault (.faulted r) := by
  simp only [step, h]

/-- Settles O13, by the two run states. -/
theorem noStepInHaltedOrFaulted : Obligations.NoStepInHaltedOrFaulted := by
  unfold Obligations.NoStepInHaltedOrFaulted
  exact fun s => ⟨step_halted, fun r => step_faulted⟩

/-- A WAITING step is held exactly with no byte queued and input open (R102). -/
theorem State.inputReady_eq_false {s : State} :
    s.inputReady = false ↔ s.console.inQueue = [] ∧ s.console.inClosed = false := by
  simp [State.inputReady]

/-- A held step is the fault of the hold with no turn to come, and the host's turn alone otherwise. -/
theorem step_held {s : State} {k : WaitKind} (h : s.run = .waiting k) (hi : s.hostTurn.inputReady = false) :
    step s = if s.host.isEmpty = true then .fault (.held k) else .next s.hostTurn := by
  simp only [step, h, State.stepWaiting, hi, Bool.false_eq_true, ↓reduceIte]

/-- Settles O14, by the step of a hold. -/
theorem waitingIsHeldWithoutInput : Obligations.WaitingIsHeldWithoutInput := by
  unfold Obligations.WaitingIsHeldWithoutInput
  intro s k hrun hq hc
  rw [step_held hrun (State.inputReady_eq_false.mpr ⟨hq, hc⟩)]
  exact ⟨fun hnil => if_pos (List.isEmpty_iff.mpr hnil), fun hne => if_neg fun h => hne (List.isEmpty_iff.mp h)⟩

/-! ## The completions of GETC and IN -/

/-- The state a completion leaves: after the host's turn the Console, R0 and the run state are set. -/
def State.completed (s : State) (c : Console) (v : Word) : State :=
  ((s.hostTurn.setConsole c).setReg 0#3 v).setRun .running

/-- A completion changes R0, the run state and the Console, and the turn is used up. -/
theorem State.completed_spec (s : State) (c : Console) (v : Word) :
    (s.completed c v).reg 0#3 = v ∧ (s.completed c v).run = .running ∧ (s.completed c v).console = c ∧
      RegsSameBut [0#3] s (s.completed c v) ∧ (s.completed c v).cond = s.cond ∧ (s.completed c v).pc = s.pc ∧
      CellsSame s (s.completed c v) ∧ (s.completed c v).host = s.host.tail := by
  refine ⟨State.reg_setReg_same _ _ _, rfl, rfl, fun r hr => ?_, s.hostTurn_cond, s.hostTurn_pc, s.hostTurn_cell,
    s.hostTurn_host⟩
  exact (State.reg_setReg_of_ne _ _ (List.ne_of_not_mem_cons hr)).trans (s.hostTurn_reg r)

/-- With a byte queued after the host's turn a wait completes with it, and IN echoes it (R153, R157). -/
theorem step_waiting_of_cons {s : State} {k : WaitKind} {b : Byte} {rest : List Byte} (hrun : s.run = .waiting k)
    (hq : s.hostTurn.console.inQueue = b :: rest) :
    step s = .next (s.completed { s.hostTurn.console with
      inQueue := rest, out := s.console.out ++ (if k = .inChar then [b] else []) } (zext b)) := by
  rw [step_waiting hrun (by simp [State.inputReady, hq])]
  rcases completeWait_cases s.hostTurn k with ⟨b', rest', hq', h⟩ | ⟨hq', -⟩ | ⟨hq', -⟩ <;>
    rw [hq] at hq' <;> cases hq'
  rw [h, State.hostTurn_out]
  rfl

/-- At end of input a wait completes with EOF_CHAR and no echo (R153, R157). -/
theorem step_waiting_of_end {s : State} {k : WaitKind} (hrun : s.run = .waiting k)
    (hq : s.hostTurn.console.inQueue = []) (hc : s.hostTurn.console.inClosed = true) :
    step s = .next (s.completed s.hostTurn.console eofChar) := by
  rw [step_waiting hrun (by simp [State.inputReady, hc])]
  rcases completeWait_cases s.hostTurn k with ⟨b', rest', hq', -⟩ | ⟨-, -, h⟩ | ⟨-, hc', -⟩
  · rw [hq] at hq'; cases hq'
  · rw [h]; rfl
  · rw [hc] at hc'; cases hc'

/-- Settles O15, by the completion with a byte, without an echo, and at end of input. -/
theorem getcCompletesWithTheOldestByte : Obligations.GetcCompletesWithTheOldestByte := by
  unfold Obligations.GetcCompletesWithTheOldestByte
  intro s hrun
  refine ⟨fun b rest hq => ?_, fun hq hc => ⟨_, step_waiting_of_end hrun hq hc, s.completed_spec _ _⟩⟩
  have hstep := step_waiting_of_cons hrun hq
  rw [if_neg (by decide), List.append_nil, ← State.hostTurn_out] at hstep
  exact ⟨_, hstep, s.completed_spec _ _⟩

/-- Settles O16, by the completion with a byte, which is echoed, and at end of input. -/
theorem inCompletesAndEchoes : Obligations.InCompletesAndEchoes := by
  unfold Obligations.InCompletesAndEchoes
  intro s hrun
  exact ⟨fun b rest hq => ⟨_, step_waiting_of_cons hrun hq, s.completed_spec _ _⟩,
    fun hq hc => ⟨_, step_waiting_of_end hrun hq hc, s.completed_spec _ _⟩⟩

end Sys2Proof.Machine

/-! PROOFS of BR, JMP, RET and JSRR (42_control.md). -/

namespace Sys2Proof.Machine

/-- A mask meets the one-hot bits of COND exactly in the mask's own bit for that flag (R34, R120). -/
theorem Cond.mask_meets_bits (c : Cond) (nzp : BitVec 3) : ((nzp &&& c.bits) != 0#3) = true ↔
    (nzp.getLsbD 2 = true ∧ c = .n) ∨ (nzp.getLsbD 1 = true ∧ c = .z) ∨ (nzp.getLsbD 0 = true ∧ c = .p) := by
  cases c <;> revert nzp <;> decide

theorem exec_br (nzp : BitVec 3) (off9 : Word) (s : State) : exec (.br nzp off9) s =
    .next (if s.branchTaken nzp = true then s.setPc (s.pc + off9) else s) := rfl

/-- Settles O24: a branch is taken where the mask meets COND, and it sets pc only. -/
theorem brBranchesWhenTheMaskMeetsCond : Obligations.BrBranchesWhenTheMaskMeetsCond := by
  unfold Obligations.BrBranchesWhenTheMaskMeetsCond
  refine ⟨fun w hop => decode_br hop, fun nzp off9 s => ⟨_, exec_br nzp off9 s, ?_⟩⟩
  have htaken := s.cond.mask_meets_bits nzp
  by_cases h : s.branchTaken nzp = true
  · rw [if_pos h, if_pos (htaken.mp h)]
    exact ⟨rfl, rfl, rfl, fun _ => rfl, rfl, rfl, rfl⟩
  · rw [if_neg h, if_neg (mt htaken.mpr h)]
    exact ⟨rfl, rfl, rfl, fun _ => rfl, rfl, rfl, rfl⟩

theorem exec_jmp (baseR : RegIdx) (s : State) : exec (.jmp baseR) s = .next (s.setPc (s.reg baseR)) := rfl

theorem exec_ret (s : State) : exec .ret s = .next (s.setPc (s.reg 7#3)) := rfl

/-- RET means what JMP R7 means (R121; log 10). -/
theorem exec_decodeJump (baseR : RegIdx) (s : State) : exec (decodeJump baseR) s = exec (.jmp baseR) s := by
  unfold decodeJump
  split
  case isTrue h => subst h; rfl
  case isFalse => rfl

/-- Settles O25: both instructions set pc only. -/
theorem jmpAndRetLoadThePc : Obligations.JmpAndRetLoadThePc := by
  unfold Obligations.JmpAndRetLoadThePc
  refine ⟨fun w s hop => ?_,
    fun baseR s => ⟨_, exec_jmp baseR s, rfl, rfl, rfl, fun _ => rfl, rfl, rfl, rfl⟩, by decide,
    fun s => ⟨_, exec_ret s, rfl, rfl, rfl, fun _ => rfl, rfl, rfl, rfl⟩⟩
  rw [decode_jmp hop]
  exact exec_decodeJump _ s

theorem exec_jsrr (baseR : RegIdx) (s : State) :
    exec (.jsrr baseR) s = .next (s.linkPc.setPc (s.linkPc.reg baseR)) := rfl

/-- Settles O27: JSRR is the link followed by a jump to the base register as the link leaves it. -/
theorem jsrrSavesThePcBeforeReadingBaseR : Obligations.JsrrSavesThePcBeforeReadingBaseR := by
  unfold Obligations.JsrrSavesThePcBeforeReadingBaseR
  refine ⟨fun w hop h11 => ?_, fun baseR s => ?_⟩
  · rw [decode_jsr hop, h11]; rfl
  · exact ⟨_, exec_jsrr baseR s, s.reg_linkPc_linkReg, s.reg_setReg linkReg baseR s.pc, s.linkPc_setPc_frame _⟩

end Sys2Proof.Machine

/-! PROOFS of TRAP and the services (44_trap.md): the dispatch by the vector, what every service leaves alone, and
each service; for PUTS and PUTSP, their scan of a string that does not reach KBSR. -/

namespace Sys2Proof.Machine

/-! ## The dispatch -/

theorem State.trapDispatch_of_some (s : State) {v : Byte} {k : Service} (h : serviceOf v = some k) :
    s.trapDispatch v = s.runService k := by
  rw [State.trapDispatch, h]

theorem State.trapDispatch_of_none (s : State) {v : Byte} (h : serviceOf v = none) :
    s.trapDispatch v = s.raiseUnknownTrap v := by
  rw [State.trapDispatch, h]

theorem exec_trap (v : Byte) (s : State) : exec (.trap v) s = .next (s.linkPc.trapDispatch v) := rfl

theorem exec_trap_of_none {v : Byte} (h : serviceOf v = none) (s : State) :
    exec (.trap v) s = .next (s.linkPc.raiseUnknownTrap v) := by
  rw [exec_trap, State.trapDispatch_of_none _ h]

theorem exec_serviceInstr (k : Service) (s : State) :
    exec (serviceInstr k) s = .next (s.linkPc.runService k) := by cases k <;> rfl

/-- A service's own constructor means what TRAP of its vector means (R151; log 10). -/
theorem exec_decodeTrap (v : Byte) (s : State) : exec (decodeTrap v) s = exec (.trap v) s := by
  unfold decodeTrap
  split
  case h_1 k h => rw [exec_serviceInstr, exec_trap, State.trapDispatch_of_some _ h]
  case h_2 => rfl

theorem serviceOf_eq_none {v : Byte} (h : v.toNat < 0x20 ∨ 0x25 < v.toNat) : serviceOf v = none := by
  rw [← Option.isNone_iff_eq_none, serviceOf_isNone, decide_eq_true_iff]
  exact h

/-! ## What every service leaves alone -/

/-- The registers, COND, pc, the schedule and all cells but KBSR and KBDR are as before (R161). -/
def ServiceFrame (s t : State) : Prop :=
  t.regs = s.regs ∧ t.cond = s.cond ∧ t.pc = s.pc ∧ t.host = s.host ∧ CellsSameBut [kbsrAddr, kbdrAddr] s t

theorem ScanFrame.serviceFrame {s t : State} (h : ScanFrame s t) : ServiceFrame s t := by
  obtain ⟨hregs, hpc, hcond, -, hhost, hcells, -⟩ := h
  exact ⟨hregs, hcond, hpc, hhost, hcells⟩

theorem State.runService_frame (s : State) (k : Service) : ServiceFrame s (s.runService k) := by
  cases k with
  | getc => exact ⟨rfl, rfl, rfl, rfl, fun _ _ => rfl⟩
  | out => exact ⟨rfl, rfl, rfl, rfl, fun _ _ => rfl⟩
  | puts => exact (putsScan_frame _ _ s).serviceFrame
  | inChar =>
    rw [State.runService, State.inStart, State.consoleEmitAll_eq]
    exact ⟨rfl, rfl, rfl, rfl, fun _ _ => rfl⟩
  | putsp => exact (putspScan_frame _ _ s).serviceFrame
  | halt => exact ⟨rfl, rfl, rfl, rfl, fun _ _ => rfl⟩

theorem State.trapDispatch_frame (s : State) (v : Byte) : ServiceFrame s (s.trapDispatch v) := by
  cases h : serviceOf v with
  | none => rw [s.trapDispatch_of_none h]; exact ⟨rfl, rfl, rfl, rfl, fun _ _ => rfl⟩
  | some k => rw [s.trapDispatch_of_some h]; exact s.runService_frame k

/-- After the link, R7 holds the incremented pc, and a service leaves every other register as before the link. -/
theorem ServiceFrame.of_linkPc {s t : State} (h : ServiceFrame s.linkPc t) :
    t.reg 7#3 = s.pc ∧ RegsSameBut [7#3] s t ∧ t.cond = s.cond ∧ t.pc = s.pc ∧ t.host = s.host ∧
      CellsSameBut [0xFE00#16, 0xFE02#16] s t := by
  obtain ⟨hregs, hcond, hpc, hhost, hcells⟩ := h
  exact ⟨(State.reg_congr hregs _).trans s.reg_linkPc_linkReg,
    fun r hr => (State.reg_congr hregs r).trans (s.regsSameBut_linkPc r hr), hcond, hpc, hhost, hcells⟩

/-- Settles O36: the decoder's constructor means what the dispatch does, and every service, the fault included, has
the frame. -/
theorem trapSavesThePcAndDispatches : Obligations.TrapSavesThePcAndDispatches := by
  unfold Obligations.TrapSavesThePcAndDispatches
  refine ⟨fun w s hop => ?_, fun v s => ⟨_, exec_trap v s, (State.trapDispatch_frame _ v).of_linkPc⟩,
    fun s => ⟨rfl, rfl, rfl, rfl, rfl, rfl⟩, fun v s hv => ?_⟩
  · rw [decode_trap hop]
    exact exec_decodeTrap _ s
  · exact ⟨_, _, exec_trap_of_none (serviceOf_eq_none hv) s, rfl, rfl, rfl, rfl, fun _ => rfl, rfl⟩

/-! ## GETC, IN, OUT and HALT -/

theorem exec_trapGetc (s : State) : exec .trapGetc s = .next (s.linkPc.setRun (.waiting .getc)) := rfl

theorem exec_trapIn (s : State) : exec .trapIn s = .next ((s.linkPc.setConsole
    { s.console with out := s.console.out ++ Config.inPrompt }).setRun (.waiting .inChar)) :=
  congrArg Host.Outcome.next (congrArg (fun t : State => t.setRun (.waiting .inChar))
    (s.linkPc.consoleEmitAll_eq Config.inPrompt))

theorem exec_trapOut (s : State) :
    exec .trapOut s = .next (s.linkPc.consoleEmit (lowByte (s.linkPc.reg 0#3))) := rfl

theorem exec_trapHalt (s : State) : exec .trapHalt s = .next (s.linkPc.setRun .halted) := rfl

theorem State.reg_linkPc_zero (s : State) : s.linkPc.reg 0#3 = s.reg 0#3 := s.reg_setReg_of_ne _ (by decide)

/-- Settles O37: both are the link and the wait, and IN emits its prompt between them. -/
theorem getcAndInStartWaiting : Obligations.GetcAndInStartWaiting := by
  unfold Obligations.GetcAndInStartWaiting
  exact ⟨fun s => ⟨_, exec_trapGetc s, s.reg_linkPc_linkReg, rfl, rfl, s.regsSameBut_linkPc, rfl, rfl, fun _ => rfl,
      rfl⟩,
    fun s => ⟨_, exec_trapIn s, s.reg_linkPc_linkReg, rfl, rfl, s.regsSameBut_linkPc, rfl, rfl, fun _ => rfl, rfl⟩⟩

/-- Settles O38: OUT is the link and one emit, of R0 as before the link. -/
theorem outEmitsTheLowByteOfR0 : Obligations.OutEmitsTheLowByteOfR0 := by
  unfold Obligations.OutEmitsTheLowByteOfR0
  intro s
  have h := exec_trapOut s
  rw [State.reg_linkPc_zero] at h
  exact ⟨_, h, s.reg_linkPc_linkReg, rfl, s.regsSameBut_linkPc, rfl, rfl, fun _ => rfl, rfl, rfl⟩

/-- Settles O39: HALT is the link and the run state, in which there is no step. -/
theorem haltStopsTheLoop : Obligations.HaltStopsTheLoop := by
  unfold Obligations.HaltStopsTheLoop
  exact fun s => ⟨_, exec_trapHalt s, s.reg_linkPc_linkReg, rfl, rfl, s.regsSameBut_linkPc, rfl, rfl, fun _ => rfl, rfl,
    step_halted rfl⟩

/-! ## PUTS and PUTSP -/

theorem exec_trapPuts (s : State) :
    exec .trapPuts s = .next (putsScan (putsBound s.linkPc) (s.reg 0#3) s.linkPc) := by
  rw [← State.reg_linkPc_zero]; rfl

theorem exec_trapPutsp (s : State) :
    exec .trapPutsp s = .next (putspScan putspBound (s.reg 0#3) s.linkPc) := by
  rw [← State.reg_linkPc_zero]; rfl

/-- A scan after the link leaves what the services leave, and the run state. -/
theorem ScanFrame.of_linkPc {s t : State} (h : ScanFrame s.linkPc t) :
    t.reg 7#3 = s.pc ∧ RegsSameBut [7#3] s t ∧ t.cond = s.cond ∧ t.pc = s.pc ∧ RunSame s t ∧
      CellsSameBut [0xFE00#16, 0xFE02#16] s t := by
  obtain ⟨hlink, hregs, hcond, hpc, hhost, hcells⟩ := h.serviceFrame.of_linkPc
  obtain ⟨-, -, -, hrun, -⟩ := h
  exact ⟨hlink, hregs, hcond, hpc, ⟨hrun, hhost⟩, hcells⟩

/-- Settles O40: the scan has fuel for every read that the loop needs. -/
theorem putsRunsItsLoopToTheEnd : Obligations.PutsRunsItsLoopToTheEnd := by
  unfold Obligations.PutsRunsItsLoopToTheEnd
  exact fun s => ⟨_, exec_trapPuts s, putsRun_putsScan _ _ _ (putsNeed_le_putsBound _ _),
    (putsScan_frame _ _ _).of_linkPc⟩

/-- Settles O42: the scan has fuel for every read that the loop needs. -/
theorem putspRunsItsLoopToTheEnd : Obligations.PutspRunsItsLoopToTheEnd := by
  unfold Obligations.PutspRunsItsLoopToTheEnd
  exact fun s => ⟨_, exec_trapPutsp s, putspRun_putspScan _ _ _ (dist_lt_putspBound _),
    (putspScan_frame _ _ _).of_linkPc⟩

/-! ## A string that does not reach KBSR -/

/-- The `n` addresses from `a` on, modulo 2^16. -/
def addrsFrom (a : Word) (n : Nat) : List Word := (List.range n).map fun k => a + BitVec.ofNat 16 k

theorem forall_mem_addrsFrom {a : Word} {n : Nat} {p : Word → Prop} :
    (∀ b ∈ addrsFrom a n, p b) ↔ ∀ k < n, p (a + BitVec.ofNat 16 k) := by
  simp [addrsFrom]

theorem add_ofNat_succ (a : Word) (k : Nat) : a + BitVec.ofNat 16 (k + 1) = a + 1#16 + BitVec.ofNat 16 k := by
  rw [Nat.add_comm k 1, BitVec.ofNat_add, BitVec.add_assoc]

theorem addrsFrom_succ (a : Word) (n : Nat) : addrsFrom a (n + 1) = a :: addrsFrom (a + 1#16) n := by
  rw [addrsFrom, List.range_succ_eq_map, List.map_cons, List.map_map, BitVec.add_zero]
  exact congrArg (a :: ·) (List.map_congr_left fun k _ => add_ofNat_succ a k)

/-- Consecutive addresses away from KBSR are fewer than the address space has. -/
theorem lt_of_ne_kbsrAddr {a : Word} {n : Nat} (h : ∀ b ∈ addrsFrom a n, b ≠ kbsrAddr) : n < 65536 := by
  by_contra hn
  have hlt := (kbsrAddr - a).isLt
  refine forall_mem_addrsFrom.mp h (kbsrAddr - a).toNat (by omega) ?_
  rw [BitVec.ofNat_toNat, BitVec.setWidth_eq, BitVec.add_comm, BitVec.sub_add_cancel]

/-- The state in which the Console has emitted these bytes and nothing else is changed. -/
def State.emitted (s : State) (bs : List Byte) : State :=
  s.setConsole { s.console with out := s.console.out ++ bs }

theorem State.emitted_nil (s : State) : s.emitted [] = s := by
  rw [State.emitted, List.append_nil]; rfl

theorem State.consoleEmit_emitted (s : State) (b : Byte) (bs : List Byte) :
    (s.consoleEmit b).emitted bs = s.emitted (b :: bs) := by
  simp [State.emitted, State.consoleEmit, State.setConsole]

theorem State.emitted_spec (s : State) (bs : List Byte) :
    CellsSame s (s.emitted bs) ∧ (s.emitted bs).console.inQueue = s.console.inQueue ∧
      (s.emitted bs).console.inClosed = s.console.inClosed ∧ (s.emitted bs).console.out = s.console.out ++ bs :=
  ⟨fun _ => rfl, rfl, rfl, rfl⟩

/-- PUTS emits the low byte of each word of a string that does not reach KBSR (R155). -/
theorem putsScan_string {n fuel : Nat} {a : Word} {s : State} (hfuel : n < fuel)
    (haway : ∀ b ∈ addrsFrom a (n + 1), b ≠ kbsrAddr) (hword : ∀ b ∈ addrsFrom a n, s.cell b ≠ 0#16)
    (hend : s.cell (a + BitVec.ofNat 16 n) = 0#16) :
    putsScan fuel a s = s.emitted ((addrsFrom a n).map fun b => lowByte (s.cell b)) := by
  induction n generalizing fuel a s with
  | zero =>
    obtain ⟨fuel, rfl⟩ := Nat.exists_eq_add_one_of_ne_zero (Nat.ne_zero_of_lt hfuel)
    rw [addrsFrom_succ, List.forall_mem_cons] at haway
    rw [BitVec.add_zero] at hend
    rw [putsScan_succ, s.memRead_of_ne haway.1, if_pos hend]
    exact s.emitted_nil.symm
  | succ n ih =>
    obtain ⟨fuel, rfl⟩ := Nat.exists_eq_add_one_of_ne_zero (Nat.ne_zero_of_lt hfuel)
    rw [addrsFrom_succ, List.forall_mem_cons] at haway hword
    rw [add_ofNat_succ] at hend
    have hrest := ih (s := s.consoleEmit (lowByte (s.cell a))) (Nat.lt_of_succ_lt_succ hfuel) haway.2 hword.2 hend
    rw [State.consoleEmit_emitted] at hrest
    rw [putsScan_succ, s.memRead_of_ne haway.1, if_neg hword.1, addrsFrom_succ, List.map_cons]
    exact hrest

/-- The bytes PUTSP emits for a word that ends the string: the low byte unless it is zero (R158). -/
def lastBytes (w : Word) : List Byte := if lowByte w = 0#8 then [] else [lowByte w]

/-- PUTSP emits both bytes of each word of a packed string that does not reach KBSR, low byte first, and then those of
the word that ends it (R158). -/
theorem putspScan_string {n fuel : Nat} {a : Word} {s : State} (hfuel : n < fuel)
    (haway : ∀ b ∈ addrsFrom a (n + 1), b ≠ kbsrAddr)
    (hword : ∀ b ∈ addrsFrom a n, lowByte (s.cell b) ≠ 0#8 ∧ highByte (s.cell b) ≠ 0#8)
    (hend : lowByte (s.cell (a + BitVec.ofNat 16 n)) = 0#8 ∨ highByte (s.cell (a + BitVec.ofNat 16 n)) = 0#8) :
    putspScan fuel a s = s.emitted (((addrsFrom a n).flatMap fun b => [lowByte (s.cell b), highByte (s.cell b)]) ++
      lastBytes (s.cell (a + BitVec.ofNat 16 n))) := by
  induction n generalizing fuel a s with
  | zero =>
    obtain ⟨fuel, rfl⟩ := Nat.exists_eq_add_one_of_ne_zero (Nat.ne_zero_of_lt hfuel)
    rw [addrsFrom_succ, List.forall_mem_cons] at haway
    rw [BitVec.add_zero] at hend ⊢
    rw [putspScan_succ, s.memRead_of_ne haway.1, lastBytes]
    by_cases hlow : lowByte (s.cell a) = 0#8
    · rw [if_pos hlow, if_pos hlow]
      exact s.emitted_nil.symm
    · rw [if_neg hlow, if_pos (hend.resolve_left hlow), if_neg hlow]
      rfl
  | succ n ih =>
    obtain ⟨fuel, rfl⟩ := Nat.exists_eq_add_one_of_ne_zero (Nat.ne_zero_of_lt hfuel)
    rw [addrsFrom_succ, List.forall_mem_cons] at haway hword
    obtain ⟨⟨hlow, hhigh⟩, hword⟩ := hword
    rw [add_ofNat_succ] at hend ⊢
    have hrest := ih (s := (s.consoleEmit (lowByte (s.cell a))).consoleEmit (highByte (s.cell a)))
      (Nat.lt_of_succ_lt_succ hfuel) haway.2 hword hend
    rw [State.consoleEmit_emitted, State.consoleEmit_emitted] at hrest
    rw [putspScan_succ, s.memRead_of_ne haway.1, if_neg hlow, if_neg hhigh, addrsFrom_succ, List.flatMap_cons]
    exact hrest

/-- Settles O41: the string is shorter than the address space, so the scan's fuel reaches its end. -/
theorem putsEmitsAStringAwayFromKbsr : Obligations.PutsEmitsAStringAwayFromKbsr := by
  unfold Obligations.PutsEmitsAStringAwayFromKbsr
  intro s n haway hword hend
  have haway' : ∀ b ∈ addrsFrom (s.reg 0#3) (n + 1), b ≠ kbsrAddr :=
    forall_mem_addrsFrom.mpr fun k hk => haway k (Nat.le_of_lt_succ hk)
  have hfuel : n < putsBound s.linkPc := by
    have := lt_of_ne_kbsrAddr haway'
    unfold putsBound
    omega
  have hscan := putsScan_string (s := s.linkPc) hfuel haway' (forall_mem_addrsFrom.mpr hword) hend
  obtain ⟨hcells, hqueue, hclosed, hout⟩ := s.linkPc.emitted_spec _
  refine ⟨_, (exec_trapPuts s).trans (congrArg _ hscan), hcells, hqueue, hclosed, hout.trans ?_⟩
  rw [addrsFrom, List.map_map]
  rfl

/-- Settles O43: the string is shorter than the address space, so the scan's fuel reaches its end. -/
theorem putspEmitsAStringAwayFromKbsr : Obligations.PutspEmitsAStringAwayFromKbsr := by
  unfold Obligations.PutspEmitsAStringAwayFromKbsr
  intro s n haway hword hend
  have haway' : ∀ b ∈ addrsFrom (s.reg 0#3) (n + 1), b ≠ kbsrAddr :=
    forall_mem_addrsFrom.mpr fun k hk => haway k (Nat.le_of_lt_succ hk)
  have hfuel : n < putspBound := by
    have := lt_of_ne_kbsrAddr haway'
    unfold putspBound
    omega
  have hscan := putspScan_string (s := s.linkPc) hfuel haway' (forall_mem_addrsFrom.mpr hword) hend
  obtain ⟨hcells, hqueue, hclosed, hout⟩ := s.linkPc.emitted_spec _
  refine ⟨_, (exec_trapPutsp s).trans (congrArg _ hscan), hcells, hqueue, hclosed, hout.trans ?_⟩
  rw [addrsFrom, List.flatMap_map, ← List.append_assoc]
  rfl

end Sys2Proof.Machine

/-! PROOFS of the faults (60_exceptions.md section 1): which instructions fault, and what a fault leaves. -/

namespace Sys2Proof.Machine

/-- The instructions that fault: the two reserved opcodes, and TRAP with a vector outside the table (R180). -/
theorem faulting_cases {i : Instr} (h : faulting i = true) :
    (∃ w, i = .rti w) ∨ (∃ w, i = .res w) ∨ ∃ v, i = .trap v ∧ serviceOf v = none := by
  cases i with
  | rti w => exact .inl ⟨w, rfl⟩
  | res w => exact .inr (.inl ⟨w, rfl⟩)
  | trap v => exact .inr (.inr ⟨v, rfl, Option.isNone_iff_eq_none.mp h⟩)
  | _ => exact absurd h Bool.false_ne_true

/-- Settles O45: the fetched word decodes to the TRAP of its vector, and the cell behind pc still holds it at the
dispatch. -/
theorem unknownTrapVectorFaults : Obligations.UnknownTrapVectorFaults := by
  unfold Obligations.UnknownTrapVectorFaults
  refine ⟨rfl, fun s w hrun hpc hcell hop hv => ?_⟩
  have hnone : serviceOf (w.extractLsb' 0 8) = none := serviceOf_eq_none hv
  have hback : s.pc + 1#16 - 1#16 = s.pc := BitVec.add_sub_cancel ..
  have hinstr : (s.hostTurn.setPc (s.pc + 1#16)).linkPc.instrWord = w := by
    rw [State.instrWord, State.instrAddr, State.linkPc_eq, State.setReg_pc, State.setReg_cell, State.setPc_pc,
      State.setPc_cell, State.hostTurn_cell, hback, hcell]
  rw [step_running_of_ne hrun hpc, hcell, decode_trap hop, exec_decodeTrap]
  refine ⟨_, exec_trap_of_none hnone _, ?_, State.reg_linkPc_linkReg _, fun r hr => ?_, rfl, s.hostTurn_cond,
    s.hostTurn_cell, rfl, s.hostTurn_host⟩
  · rw [State.raiseUnknownTrap, hinstr]
    exact congrArg (fun a => RunState.faulted ⟨_, a, _, _⟩) hback
  · exact (State.regsSameBut_linkPc _ r hr).trans (s.hostTurn_reg r)

/-- A service goes on running, waits or halts: it never faults. -/
theorem State.runService_run (s : State) (k : Service) :
    (s.runService k).run = s.run ∨ (∃ w, (s.runService k).run = .waiting w) ∨ (s.runService k).run = .halted := by
  cases k with
  | getc => exact .inr (.inl ⟨.getc, rfl⟩)
  | out => exact .inl rfl
  | puts =>
    obtain ⟨-, -, -, hrun, -⟩ := putsScan_frame (putsBound s) (s.reg 0#3) s
    exact .inl hrun
  | inChar => exact .inr (.inl ⟨.inChar, rfl⟩)
  | putsp =>
    obtain ⟨-, -, -, hrun, -⟩ := putspScan_frame putspBound (s.reg 0#3) s
    exact .inl hrun
  | halt => exact .inr (.inr rfl)

/-- An instruction outside the fault table keeps the run state, waits or halts (R182). -/
theorem exec_run_of_not_faulting {i : Instr} {s t : State} (hf : faulting i = false) (h : exec i s = .next t) :
    t.run = s.run ∨ (∃ w, t.run = .waiting w) ∨ t.run = .halted := by
  cases i with
  | rti w => cases hf
  | res w => cases hf
  | trap v =>
    obtain ⟨k, hk⟩ := Option.isSome_iff_exists.mp (Option.isNone_eq_false_iff.mp hf)
    rw [exec_trap, State.trapDispatch_of_some _ hk] at h
    cases h
    exact s.linkPc.runService_run k
  | trapGetc => cases h; exact s.linkPc.runService_run .getc
  | trapOut => cases h; exact s.linkPc.runService_run .out
  | trapPuts => cases h; exact s.linkPc.runService_run .puts
  | trapIn => cases h; exact s.linkPc.runService_run .inChar
  | trapPutsp => cases h; exact s.linkPc.runService_run .putsp
  | trapHalt => cases h; exact s.linkPc.runService_run .halt
  | br nzp off9 =>
    rw [exec_br] at h
    cases h
    split <;> exact .inl rfl
  | ld dr off9 => cases h; exact .inl (s.afterRead_run _)
  | ldr dr baseR off6 => cases h; exact .inl (s.afterRead_run _)
  | ldi dr off9 => cases h; exact .inl ((State.afterRead_run _ _).trans (s.afterRead_run _))
  | st sr off9 => cases h; exact .inl (s.memWrite_run _ _)
  | str sr baseR off6 => cases h; exact .inl (s.memWrite_run _ _)
  | sti sr off9 => cases h; exact .inl ((State.memWrite_run _ _ _).trans (s.afterRead_run _))
  | addReg dr sr1 sr2 => cases h; exact .inl rfl
  | addImm dr sr1 imm5 => cases h; exact .inl rfl
  | andReg dr sr1 sr2 => cases h; exact .inl rfl
  | andImm dr sr1 imm5 => cases h; exact .inl rfl
  | not dr sr => cases h; exact .inl rfl
  | lea dr off9 => cases h; exact .inl rfl
  | jmp baseR => cases h; exact .inl rfl
  | ret => cases h; exact .inl rfl
  | jsr off11 => cases h; exact .inl rfl
  | jsrr baseR => cases h; exact .inl rfl

/-- Settles O46: the three faulting cases enter FAULTED, and the run state of every other instruction is one that is
not FAULTED, or the one before it. -/
theorem onlyReservedAndUnknownTrapsFault : Obligations.OnlyReservedAndUnknownTrapsFault := by
  unfold Obligations.OnlyReservedAndUnknownTrapsFault
  intro i s
  obtain ⟨t, ht⟩ := exec_completes i s
  refine ⟨t, ht, fun hf => ?_, fun hf r hr => ?_⟩
  · rcases faulting_cases hf with ⟨w, rfl⟩ | ⟨w, rfl⟩ | ⟨v, rfl, hv⟩
    · cases ht; exact ⟨_, rfl⟩
    · cases ht; exact ⟨_, rfl⟩
    · rw [exec_trap_of_none hv] at ht
      cases ht; exact ⟨_, rfl⟩
  · rcases exec_run_of_not_faulting hf ht with h | ⟨w, h⟩ | h
    · exact h.symm.trans hr
    · rw [hr] at h; cases h
    · rw [hr] at h; cases h

/-- Settles O47: a reserved opcode only sets `run`, and an unknown TRAP does so after the link. -/
theorem faultsArePrecise : Obligations.FaultsArePrecise := by
  unfold Obligations.FaultsArePrecise
  intro i s t hf h
  rcases faulting_cases hf with ⟨w, rfl⟩ | ⟨w, rfl⟩ | ⟨v, rfl, hv⟩
  · cases h
    exact ⟨rfl, rfl, fun _ => rfl, rfl, rfl, .inl ⟨_, rfl, rfl, rfl⟩⟩
  · cases h
    exact ⟨rfl, rfl, fun _ => rfl, rfl, rfl, .inl ⟨_, rfl, rfl, rfl⟩⟩
  · rw [exec_trap_of_none hv] at h
    cases h
    exact ⟨rfl, rfl, fun _ => rfl, rfl, rfl, .inr ⟨_, rfl, rfl, s.reg_linkPc_linkReg, s.regsSameBut_linkPc⟩⟩

end Sys2Proof.Machine

/-! PROOFS of what no instruction or step does beyond the tables (10_state.md sections 1 and 3, 20_memory.md section 3):
each is a property that every operation granted to the instruction keeps. -/

namespace Sys2Proof.Machine

/-! ## Registers, pc and COND -/

/-- Settles O48: register writes are granted inside the table's entry only, and a pc write only where the table grants
it. -/
theorem instructionsWriteOnlyTheirRegisters : Obligations.InstructionsWriteOnlyTheirRegisters := by
  unfold Obligations.InstructionsWriteOnlyTheirRegisters
  intro i s t h
  refine ⟨?_, fun hpc => ?_⟩
  · refine exec_keeps (P := RegsSameBut (regsWritten i) s) h (fun u r hr v hu r' hr' => ?_) (fun _ _ _ hu => hu)
      (fun _ _ _ hu => hu) (fun _ u a v hu r hr => (u.memWrite_reg a v r).trans (hu r hr))
      (fun u a hu r hr => (u.afterRead_reg a r).trans (hu r hr)) (fun _ _ hu => hu) (fun _ _ hu => hu) (fun _ _ => rfl)
    have hne : r' ≠ r := fun h => hr' (h ▸ hr)
    exact (u.reg_setReg_of_ne v hne).trans (hu r' hr')
  · exact exec_keeps (P := fun u => u.pc = s.pc) h (fun _ _ _ _ hu => hu)
      (fun hgranted => absurd (hpc.symm.trans hgranted) Bool.false_ne_true) (fun _ _ _ hu => hu)
      (fun _ u a v hu => (u.memWrite_pc a v).trans hu) (fun u a hu => (u.afterRead_pc a).trans hu) (fun _ _ hu => hu)
      (fun _ _ hu => hu) rfl

theorem exec_cond_of_not_flagSetting {i : Instr} {s t : State} (hi : flagSetting i = false) (h : exec i s = .next t) :
    t.cond = s.cond :=
  exec_keeps (P := fun u => u.cond = s.cond) h (fun _ _ _ _ hu => hu) (fun _ _ _ hu => hu)
    (fun hgranted => absurd (hi.symm.trans hgranted) Bool.false_ne_true)
    (fun _ u a v hu => (u.memWrite_cond a v).trans hu) (fun u a hu => (u.afterRead_cond a).trans hu) (fun _ _ hu => hu)
    (fun _ _ hu => hu) rfl

/-- A flag-setting instruction ends with a write of DR together with the flags (R36). -/
theorem exec_writeDr_of_flagSetting {i : Instr} {s t : State} (hi : flagSetting i = true) (h : exec i s = .next t) :
    ∃ dr u v, regsWritten i = [dr] ∧ t = State.writeDr u dr v := by
  cases i with
  | addReg dr sr1 sr2 => cases h; exact ⟨dr, _, _, rfl, rfl⟩
  | addImm dr sr1 imm5 => cases h; exact ⟨dr, _, _, rfl, rfl⟩
  | andReg dr sr1 sr2 => cases h; exact ⟨dr, _, _, rfl, rfl⟩
  | andImm dr sr1 imm5 => cases h; exact ⟨dr, _, _, rfl, rfl⟩
  | not dr sr => cases h; exact ⟨dr, _, _, rfl, rfl⟩
  | ld dr off9 => cases h; exact ⟨dr, _, _, rfl, rfl⟩
  | ldi dr off9 => cases h; exact ⟨dr, _, _, rfl, rfl⟩
  | ldr dr baseR off6 => cases h; exact ⟨dr, _, _, rfl, rfl⟩
  | lea dr off9 => cases h; exact ⟨dr, _, _, rfl, rfl⟩
  | _ => exact absurd hi Bool.false_ne_true

/-- Settles O49: COND changes with a granted flag write only, and that write is the one of DR. -/
theorem condChangesOnlyWithTheValueWritten : Obligations.CondChangesOnlyWithTheValueWritten := by
  unfold Obligations.CondChangesOnlyWithTheValueWritten
  intro i s t h
  refine ⟨fun hi => exec_cond_of_not_flagSetting hi h, fun hi => ?_⟩
  obtain ⟨dr, u, v, hregs, rfl⟩ := exec_writeDr_of_flagSetting hi h
  obtain ⟨hflags, -⟩ := u.writeDr_flags_frame dr v
  exact ⟨dr, hregs, hflags⟩

/-! ## Memory and the Console -/

theorem CellsSameBut.afterRead {s u : State} (h : CellsSameBut [kbsrAddr, kbdrAddr] s u) (a : Word) :
    CellsSameBut [kbsrAddr, kbdrAddr] s (u.afterRead a) := fun b hb => by
  obtain ⟨-, -, -, -, -, hcells, -⟩ := (ScanFrame.refl u).afterRead a
  exact (hcells b hb).trans (h b hb)

/-- Settles O50: a cell other than KBSR and KBDR changes with a granted store only. -/
theorem onlyStoresChangePlainCells : Obligations.OnlyStoresChangePlainCells := by
  unfold Obligations.OnlyStoresChangePlainCells
  intro i s t h hi
  exact exec_keeps (P := CellsSameBut [kbsrAddr, kbdrAddr] s) h (fun _ _ _ _ hu => hu) (fun _ _ _ hu => hu)
    (fun _ _ _ hu => hu) (fun hgranted => absurd (hi.symm.trans hgranted) Bool.false_ne_true)
    (fun _ a hu => hu.afterRead a) (fun _ _ hu => hu) (fun _ _ hu => hu) (fun _ _ => rfl)

/-- Input is consumed from the front and neither opened nor closed, and output is appended (R44, R66). -/
def ConsoleProgress (c c' : Console) : Prop :=
  (∃ n, c'.inQueue = c.inQueue.drop n) ∧ c'.inClosed = c.inClosed ∧ (∃ bs, c'.out = c.out ++ bs)

theorem ConsoleProgress.refl (c : Console) : ConsoleProgress c c :=
  ⟨⟨0, rfl⟩, rfl, ⟨[], (List.append_nil _).symm⟩⟩

theorem ConsoleProgress.trans {c c' c'' : Console} (h : ConsoleProgress c c') (h' : ConsoleProgress c' c'') :
    ConsoleProgress c c'' := by
  obtain ⟨⟨n, hn⟩, hclosed, ⟨bs, hbs⟩⟩ := h
  obtain ⟨⟨n', hn'⟩, hclosed', ⟨bs', hbs'⟩⟩ := h'
  refine ⟨⟨n + n', ?_⟩, hclosed'.trans hclosed, ⟨bs ++ bs', ?_⟩⟩
  · rw [hn', hn, List.drop_drop]
  · rw [hbs', hbs, List.append_assoc]

theorem State.afterRead_consoleProgress (s : State) (a : Word) :
    ConsoleProgress s.console (s.afterRead a).console := by
  obtain ⟨-, -, -, -, -, -, hclosed, hqueue, hout⟩ := (ScanFrame.refl s).afterRead a
  exact ⟨hqueue, hclosed, hout⟩

theorem State.consoleEmit_consoleProgress (s : State) (b : Byte) :
    ConsoleProgress s.console (s.consoleEmit b).console := ⟨⟨0, rfl⟩, rfl, ⟨[b], rfl⟩⟩

theorem State.memWrite_consoleProgress (s : State) (a v : Word) :
    ConsoleProgress s.console (s.memWrite a v).console :=
  ⟨⟨0, s.memWrite_inQueue a v⟩, s.memWrite_inClosed a v, ⟨_, s.memWrite_out a v⟩⟩

/-- Settles O51: reads, emits and stores are the only operations on the Console that an instruction has. -/
theorem coreConsumesInputAndAppendsOutput : Obligations.CoreConsumesInputAndAppendsOutput := by
  unfold Obligations.CoreConsumesInputAndAppendsOutput
  intro i s t h
  exact exec_keeps (P := fun u => ConsoleProgress s.console u.console) h (fun _ _ _ _ hu => hu) (fun _ _ _ hu => hu)
    (fun _ _ _ hu => hu) (fun _ u a v hu => hu.trans (u.memWrite_consoleProgress a v))
    (fun u a hu => hu.trans (u.afterRead_consoleProgress a)) (fun u b hu => hu.trans (u.consoleEmit_consoleProgress b))
    (fun _ _ hu => hu) (.refl _)

theorem completeWait_out (s : State) (k : WaitKind) : ∃ bs, (s.completeWait k).console.out = s.console.out ++ bs := by
  rcases completeWait_cases s k with ⟨b, rest, -, h⟩ | ⟨-, -, h⟩ | ⟨-, -, h⟩ <;> rw [h]
  · exact ⟨_, rfl⟩
  · exact ⟨[], (List.append_nil _).symm⟩
  · exact ⟨[], (List.append_nil _).symm⟩

/-- Settles O52: the host's turn and the fetch leave `out`, and an instruction or a completion appends to it. -/
theorem outputOnlyGrows : Obligations.OutputOnlyGrows := by
  unfold Obligations.OutputOnlyGrows
  intro s t hstep
  rcases step_cases hstep with ⟨-, w, hexec, -⟩ | ⟨k, -, -, rfl⟩ | ⟨k, -, -, -, rfl⟩
  · obtain ⟨-, -, ⟨bs, hbs⟩⟩ := coreConsumesInputAndAppendsOutput _ _ _ hexec
    rw [State.setPc_console, State.afterRead_out, State.hostTurn_out] at hbs
    exact ⟨bs, hbs⟩
  · obtain ⟨bs, hbs⟩ := completeWait_out s.hostTurn k
    rw [State.hostTurn_out] at hbs
    exact ⟨bs, hbs⟩
  · exact ⟨[], s.hostTurn_out.trans (List.append_nil _).symm⟩

/-! ## The host schedule -/

theorem State.kbsrPoll_setHost (s : State) (h : List (List HostMove)) :
    (s.setHost h).kbsrPoll = s.kbsrPoll.setHost h := by
  rcases s.kbsrPoll_cases with ⟨b, rest, hq, e⟩ | ⟨hq, e⟩
  · rw [e, State.kbsrPoll_of_cons (s := s.setHost h) hq]; rfl
  · rw [e, State.kbsrPoll_of_nil (s := s.setHost h) hq]; rfl

theorem State.afterRead_setHost (s : State) (h : List (List HostMove)) (a : Word) :
    (s.setHost h).afterRead a = (s.afterRead a).setHost h := by
  unfold State.afterRead
  split <;> [exact s.kbsrPoll_setHost h; rfl]

theorem State.memRead_setHost (s : State) (h : List (List HostMove)) (a : Word) :
    (s.setHost h).memRead a = ((s.memRead a).1, (s.memRead a).2.setHost h) := by
  rw [State.memRead, State.afterRead_setHost]
  rfl

theorem State.memWrite_setHost (s : State) (h : List (List HostMove)) (a v : Word) :
    (s.setHost h).memWrite a v = (s.memWrite a v).setHost h := by
  unfold State.memWrite
  split <;> rfl

theorem State.load_setHost (s : State) (h : List (List HostMove)) (dr : RegIdx) (ea : Word) :
    (s.setHost h).load dr ea = (s.load dr ea).setHost h := by
  rw [State.load_eq, State.afterRead_setHost, State.memRead_setHost]
  rfl

theorem putsScan_setHost (h : List (List HostMove)) (n : Nat) (a : Word) (s : State) :
    putsScan n a (s.setHost h) = (putsScan n a s).setHost h := by
  induction n generalizing a s with
  | zero => rfl
  | succ n ih =>
    rw [putsScan_succ, putsScan_succ, State.memRead_setHost]
    split
    · rfl
    · exact ih _ ((s.memRead a).2.consoleEmit _)

theorem putspScan_setHost (h : List (List HostMove)) (n : Nat) (a : Word) (s : State) :
    putspScan n a (s.setHost h) = (putspScan n a s).setHost h := by
  induction n generalizing a s with
  | zero => rfl
  | succ n ih =>
    rw [putspScan_succ, putspScan_succ, State.memRead_setHost]
    split
    · rfl
    · split
      · rfl
      · exact ih _ (((s.memRead a).2.consoleEmit _).consoleEmit _)

theorem State.runService_setHost (s : State) (h : List (List HostMove)) (k : Service) :
    (s.setHost h).runService k = (s.runService k).setHost h := by
  cases k with
  | getc => rfl
  | out => rfl
  | puts => exact putsScan_setHost h _ _ s
  | inChar =>
    rw [State.runService, State.inStart, State.consoleEmitAll_eq, State.runService, State.inStart,
      State.consoleEmitAll_eq]
    rfl
  | putsp => exact putspScan_setHost h _ _ s
  | halt => rfl

theorem State.trapDispatch_setHost (s : State) (h : List (List HostMove)) (v : Byte) :
    (s.setHost h).trapDispatch v = (s.trapDispatch v).setHost h := by
  cases hv : serviceOf v with
  | none => rw [State.trapDispatch_of_none _ hv, State.trapDispatch_of_none _ hv]; rfl
  | some k =>
    rw [State.trapDispatch_of_some _ hv, State.trapDispatch_of_some _ hv]
    exact s.runService_setHost h k

/-- Settles O53, instruction by instruction: every operation commutes with a change of the schedule. -/
theorem instructionsDoNotSeeTheHostSchedule : Obligations.InstructionsDoNotSeeTheHostSchedule := by
  unfold Obligations.InstructionsDoNotSeeTheHostSchedule
  intro i s t h hexec
  cases i with
  | br nzp off9 =>
    rw [exec_br] at hexec ⊢
    cases hexec
    refine congrArg _ ?_
    change (if s.branchTaken nzp = true then _ else _) = _
    split <;> rfl
  | ld dr off9 => cases hexec; exact congrArg _ (s.load_setHost h dr _)
  | ldr dr baseR off6 => cases hexec; exact congrArg _ (s.load_setHost h dr _)
  | ldi dr off9 =>
    rw [exec_ldi_of_memRead rfl] at hexec
    cases hexec
    rw [exec_ldi_of_memRead (s.memRead_setHost h _)]
    exact congrArg _ (State.load_setHost _ h dr _)
  | st sr off9 => cases hexec; exact congrArg _ (s.memWrite_setHost h _ _)
  | str sr baseR off6 => cases hexec; exact congrArg _ (s.memWrite_setHost h _ _)
  | sti sr off9 =>
    rw [exec_sti_of_memRead rfl] at hexec
    cases hexec
    rw [exec_sti_of_memRead (s.memRead_setHost h _)]
    exact congrArg _ (State.memWrite_setHost _ h _ _)
  | trap v => cases hexec; exact congrArg _ (s.linkPc.trapDispatch_setHost h v)
  | trapGetc => cases hexec; rfl
  | trapOut => cases hexec; rfl
  | trapPuts => cases hexec; exact congrArg _ (s.linkPc.runService_setHost h .puts)
  | trapIn => cases hexec; exact congrArg _ (s.linkPc.runService_setHost h .inChar)
  | trapPutsp => cases hexec; exact congrArg _ (s.linkPc.runService_setHost h .putsp)
  | trapHalt => cases hexec; rfl
  | addReg dr sr1 sr2 => cases hexec; rfl
  | addImm dr sr1 imm5 => cases hexec; rfl
  | andReg dr sr1 sr2 => cases hexec; rfl
  | andImm dr sr1 imm5 => cases hexec; rfl
  | not dr sr => cases hexec; rfl
  | lea dr off9 => cases hexec; rfl
  | jmp baseR => cases hexec; rfl
  | ret => cases hexec; rfl
  | jsr off11 => cases hexec; rfl
  | jsrr baseR => cases hexec; rfl
  | rti w => cases hexec; rfl
  | res w => cases hexec; rfl

end Sys2Proof.Machine

/-! PROOFS of how a run ends (40_execution_loop.md R108): under the finite schedule that the state carries, a run ends
in the fault that `step` answers at its last state; under an unending one, in a state that is HALTED or FAULTED, or in
a hold that no turn lifts; and the finite schedule's run is that of its unending form. -/

namespace Sys2Proof.Machine

/-! ## Exactly one of four -/

/-- One of the four holds and the other three do not. -/
def ExactlyOneOf (a b c d : Prop) : Prop :=
  (a ∧ ¬b ∧ ¬c ∧ ¬d) ∨ (¬a ∧ b ∧ ¬c ∧ ¬d) ∨ (¬a ∧ ¬b ∧ c ∧ ¬d) ∨ (¬a ∧ ¬b ∧ ¬c ∧ d)

theorem exactlyOneOf_of_pairwise {a b c d : Prop} (h : a ∨ b ∨ c ∨ d) (hab : a → ¬b) (hac : a → ¬c) (had : a → ¬d)
    (hbc : b → ¬c) (hbd : b → ¬d) (hcd : c → ¬d) : ExactlyOneOf a b c d := by
  rcases h with ha | hb | hc | hd
  · exact .inl ⟨ha, hab ha, hac ha, had ha⟩
  · exact .inr (.inl ⟨fun ha => hab ha hb, hb, hbc hb, hbd hb⟩)
  · exact .inr (.inr (.inl ⟨fun ha => hac ha hc, fun hb => hbc hb hc, hc, hcd hc⟩))
  · exact .inr (.inr (.inr ⟨fun ha => had ha hd, fun hb => hbd hb hd, fun hc => hcd hc hd, hd⟩))

/-- Between two families of which exactly one member holds, implications are equivalences. -/
theorem ExactlyOneOf.iff_of_imp {a b c d a' b' c' d' : Prop} (h : ExactlyOneOf a b c d) (h' : ExactlyOneOf a' b' c' d')
    (ha : a → a') (hb : b → b') (hc : c → c') (hd : d → d') : (a ↔ a') ∧ (b ↔ b') ∧ (c ↔ c') ∧ (d ↔ d') := by
  unfold ExactlyOneOf at h h'
  tauto

/-! ## Under the schedule that the state carries -/

/-- The run from `s` comes to a state without a step, where `step` answers the fault `f`. -/
def EndsBy (s : State) (f : Fault) : Prop := ∃ n t, Reaches n s t ∧ step t = .fault f

theorem step_ne_next_of_fault {t : State} {f : Fault} (h : step t = .fault f) : ∀ u, step t ≠ .next u := fun u hu => by
  rw [h] at hu; cases hu

theorem endsBy_unique {s : State} {f f' : Fault} (h : EndsBy s f) (h' : EndsBy s f') : f = f' := by
  obtain ⟨n, t, ht, hf⟩ := h
  obtain ⟨n', t', ht', hf'⟩ := h'
  obtain rfl : n = n' := Nat.le_antisymm (reaches_le_of_stuck ht' (step_ne_next_of_fault hf') ht)
    (reaches_le_of_stuck ht (step_ne_next_of_fault hf) ht')
  rw [reaches_unique ht ht', hf'] at hf
  cases hf
  rfl

theorem step_eq_fault_halted_iff {t : State} : step t = .fault .halted ↔ t.run = .halted := by
  refine ⟨fun h => ?_, step_halted⟩
  rcases step_not_next (step_ne_next_of_fault h) with ⟨hr, -⟩ | ⟨r, -, h'⟩ | ⟨k, -, h'⟩
  · exact hr
  · rw [h] at h'; cases h'
  · rw [h] at h'; cases h'

theorem step_eq_fault_faulted_iff {t : State} {r : FaultRecord} :
    step t = .fault (.faulted r) ↔ t.run = .faulted r := by
  refine ⟨fun h => ?_, step_faulted⟩
  rcases step_not_next (step_ne_next_of_fault h) with ⟨-, h'⟩ | ⟨r', hr, h'⟩ | ⟨k, -, h'⟩
  · rw [h] at h'; cases h'
  · rw [h] at h'; cases h'; exact hr
  · rw [h] at h'; cases h'

theorem endsNormally_iff {s : State} : EndsNormally s ↔ EndsBy s .halted := by
  simp only [EndsNormally, EndsBy, step_eq_fault_halted_iff]

theorem endsInError_iff {s : State} : EndsInError s ↔ ∃ r, EndsBy s (.faulted r) := by
  simp only [EndsInError, EndsBy, step_eq_fault_faulted_iff]
  exact ⟨fun ⟨n, t, r, h⟩ => ⟨r, n, t, h⟩, fun ⟨r, n, t, h⟩ => ⟨n, t, r, h⟩⟩

theorem comesToHold_iff {s : State} : ComesToHold s ↔ ∃ k, EndsBy s (.held k) :=
  ⟨fun ⟨n, t, k, h⟩ => ⟨k, n, t, h⟩, fun ⟨k, n, t, h⟩ => ⟨n, t, k, h⟩⟩

/-- Where there is no next state there is a fault: a step is never refused. -/
theorem step_next_or_fault (s : State) : (∃ t, step s = .next t) ∨ ∃ f, step s = .fault f := by
  by_cases h : ∃ t, step s = .next t
  · exact .inl h
  · rcases step_not_next (not_exists.mp h) with ⟨-, h'⟩ | ⟨r, -, h'⟩ | ⟨k, -, h'⟩
    · exact .inr ⟨_, h'⟩
    · exact .inr ⟨_, h'⟩
    · exact .inr ⟨_, h'⟩

theorem not_endsBy_of_runsForever {s : State} (h : RunsForever s) (f : Fault) : ¬EndsBy s f := fun ⟨n, t, ht, hf⟩ => by
  obtain ⟨u, hu⟩ := h (n + 1)
  exact absurd (reaches_le_of_stuck ht (step_ne_next_of_fault hf) hu) (Nat.not_succ_le_self n)

theorem runsForever_of_not_endsBy {s : State} (h : ∀ f, ¬EndsBy s f) : RunsForever s := fun n => by
  induction n with
  | zero => exact ⟨s, reaches_zero s⟩
  | succ n ih =>
    obtain ⟨t, ht⟩ := ih
    rcases step_next_or_fault t with ⟨u, hu⟩ | ⟨f, hf⟩
    · exact ⟨u, reaches_succ_last.mpr ⟨t, ht, hu⟩⟩
    · exact absurd ⟨n, t, ht, hf⟩ (h f)

theorem runsForever_iff {s : State} : RunsForever s ↔ ∀ f, ¬EndsBy s f :=
  ⟨not_endsBy_of_runsForever, runsForever_of_not_endsBy⟩

/-- Settles O57: the four ways are the three kinds of fault at the last state, which is unique, and no last state. -/
theorem runEndsInExactlyOneWay : Obligations.RunEndsInExactlyOneWay := by
  unfold Obligations.RunEndsInExactlyOneWay
  intro s
  rw [endsNormally_iff, endsInError_iff, comesToHold_iff, runsForever_iff]
  refine exactlyOneOf_of_pairwise ?_ ?_ ?_ (fun h hno => hno _ h) ?_ (fun ⟨r, h⟩ hno => hno _ h)
    (fun ⟨k, h⟩ hno => hno _ h)
  · by_cases h : ∃ f, EndsBy s f
    · obtain ⟨f, hf⟩ := h
      cases f with
      | halted => exact .inl hf
      | faulted r => exact .inr (.inl ⟨r, hf⟩)
      | held k => exact .inr (.inr (.inl ⟨k, hf⟩))
    · exact .inr (.inr (.inr (not_exists.mp h)))
  · rintro h ⟨r, h'⟩
    cases endsBy_unique h h'
  · rintro h ⟨k, h'⟩
    cases endsBy_unique h h'
  · rintro ⟨r, h⟩ ⟨k, h'⟩
    cases endsBy_unique h h'

/-! ## Under an unending schedule -/

/-- HALTED or FAULTED: the run states in which no turn is followed by a step. -/
def Stopped (t : State) : Prop := t.run = .halted ∨ ∃ r, t.run = .faulted r

theorem stepUnder_ne_next_of_stopped {t : State} (h : Stopped t) (ms : List HostMove) :
    ∀ u, stepUnder ms t ≠ .next u := by
  rcases h with h | ⟨r, h⟩
  · exact step_ne_next_of_fault (step_halted (s := t.setHost [ms]) h)
  · exact step_ne_next_of_fault (step_faulted (s := t.setHost [ms]) h)

theorem stepUnder_next_of_not_stopped {t : State} (h : ¬Stopped t) (ms : List HostMove) :
    ∃ u, stepUnder ms t = .next u := by
  rcases stepUnder_cases ms t with ⟨-, hu⟩ | ⟨k, -, -, hu⟩ | ⟨k, -, -, hu⟩ | ⟨hr, -⟩ | ⟨r, hr, -⟩
  · exact hu
  · exact ⟨_, hu⟩
  · exact ⟨_, hu⟩
  · exact absurd (.inl hr) h
  · exact absurd (.inr ⟨r, hr⟩) h

theorem reachesUnder_le_of_stopped {σ : Schedule} {n m : Nat} {s t u : State} (h : ReachesUnder σ n s t)
    (ht : Stopped t) (h' : ReachesUnder σ m s u) : m ≤ n := by
  by_contra hlt
  obtain ⟨v, t', ht', hstep⟩ := reachesUnder_of_le h' (Nat.lt_of_not_le hlt)
  rw [reachesUnder_unique ht' h] at hstep
  exact stepUnder_ne_next_of_stopped ht _ _ hstep

theorem stopped_unique {σ : Schedule} {n m : Nat} {s t u : State} (h : ReachesUnder σ n s t) (ht : Stopped t)
    (h' : ReachesUnder σ m s u) (hu : Stopped u) : t = u := by
  obtain rfl : n = m :=
    Nat.le_antisymm (reachesUnder_le_of_stopped h' hu h) (reachesUnder_le_of_stopped h ht h')
  exact reachesUnder_unique h h'

/-- WAITING with no byte queued and input open. -/
def Held (k : WaitKind) (t : State) : Prop :=
  t.run = .waiting k ∧ t.console.inQueue = [] ∧ t.console.inClosed = false

/-- A turn without a move leaves a hold as it is. -/
theorem stepUnder_nil_of_held {k : WaitKind} {t : State} (h : Held k t) : stepUnder [] t = .next (t.setHost []) := by
  obtain ⟨hr, hq, hc⟩ := h
  have hturn : (t.setHost [[]]).hostTurn = t.setHost [] := t.hostTurn_setHost_singleton []
  rw [stepUnder, step_held (s := t.setHost [[]]) hr (hturn ▸ State.inputReady_eq_false.mpr ⟨hq, hc⟩), hturn]
  rfl

/-- A hold after which no turn makes a move goes on for ever. -/
theorem held_of_no_moves {σ : Schedule} {n : Nat} {k : WaitKind} {s t : State} (ht : ReachesUnder σ n s t)
    (hk : Held k t) (hσ : ∀ m, n ≤ m → σ m = []) {m : Nat} (hnm : n ≤ m) :
    ∃ u, ReachesUnder σ m s u ∧ Held k u := by
  induction m, hnm using Nat.le_induction with
  | base => exact ⟨t, ht, hk⟩
  | succ m hnm ih =>
    obtain ⟨u, hu, hku⟩ := ih
    exact ⟨u.setHost [], reachesUnder_succ.mpr ⟨u, hu, hσ m hnm ▸ stepUnder_nil_of_held hku⟩, hku⟩

theorem not_stopped_of_blockedUnder {σ : Schedule} {n : Nat} {s t : State} (hb : BlockedUnder σ s)
    (h : ReachesUnder σ n s t) : ¬Stopped t := fun ht => by
  obtain ⟨m, u, k, hu, hr, hq, hc, hσ⟩ := hb
  obtain ⟨v, hv, hrv, -⟩ := held_of_no_moves hu ⟨hr, hq, hc⟩ hσ (reachesUnder_le_of_stopped h ht hu)
  rw [reachesUnder_unique h hv] at ht
  rcases ht with ht | ⟨r, ht⟩
  · rw [hrv] at ht; cases ht
  · rw [hrv] at ht; cases ht

theorem not_stopped_of_runsForeverUnder {σ : Schedule} {n : Nat} {s t : State} (hf : RunsForeverUnder σ s)
    (h : ReachesUnder σ n s t) : ¬Stopped t := fun ht => by
  obtain ⟨m, u, hnm, hu, -⟩ := hf (n + 1)
  exact absurd (Nat.le_trans hnm (reachesUnder_le_of_stopped h ht hu)) (Nat.not_succ_le_self n)

theorem not_runsForeverUnder_of_blockedUnder {σ : Schedule} {s : State} (hb : BlockedUnder σ s) :
    ¬RunsForeverUnder σ s := fun hf => by
  obtain ⟨n, t, k, ht, hr, hq, hc, hσ⟩ := hb
  obtain ⟨m, u, hnm, hu, hrun⟩ := hf n
  obtain ⟨v, hv, hrv, -⟩ := held_of_no_moves ht ⟨hr, hq, hc⟩ hσ hnm
  rw [reachesUnder_unique hu hv, hrv] at hrun
  cases hrun

theorem completeWait_run {s : State} (k : WaitKind) (h : s.inputReady = true) : (s.completeWait k).run = .running := by
  rcases completeWait_cases s k with ⟨b, rest, -, e⟩ | ⟨-, -, e⟩ | ⟨hq, hc, -⟩
  · rw [e]; rfl
  · rw [e]; rfl
  · rw [State.inputReady_eq_false.mpr ⟨hq, hc⟩] at h; cases h

/-- A step from one state that is not RUNNING to another is a turn that does not lift the hold. -/
theorem held_of_stepUnder {ms : List HostMove} {t u : State} (h : stepUnder ms t = .next u) (ht : t.run ≠ .running)
    (hu : u.run ≠ .running) : u.console = t.console.hostMoves ms ∧ ∃ k, Held k u := by
  rcases stepUnder_cases ms t with ⟨hr, -⟩ | ⟨k, -, hi, e⟩ | ⟨k, hr, hi, e⟩ | ⟨hr, -⟩ | ⟨r, hr, -⟩
  · exact absurd hr ht
  · rw [e] at h
    cases h
    exact absurd (completeWait_run k hi) hu
  · rw [e] at h
    cases h
    refine ⟨by rw [State.hostTurn_setHost_singleton]; rfl, k, ?_, State.inputReady_eq_false.mp hi⟩
    rw [State.hostTurn_run]
    exact hr
  · exact absurd h (stepUnder_ne_next_of_stopped (.inl hr) ms u)
  · exact absurd h (stepUnder_ne_next_of_stopped (.inr ⟨r, hr⟩) ms u)

/-- Every move lifts a hold: a byte queues, a close ends input. -/
theorem eq_nil_of_hostMoves_held {c : Console} {ms : List HostMove} (hc : c.inClosed = false)
    (hq' : (c.hostMoves ms).inQueue = []) (hc' : (c.hostMoves ms).inClosed = false) : ms = [] := by
  rw [Console.hostMoves_inQueue_of_open (by simp [hc])] at hq'
  rw [Console.hostMoves_inClosed] at hc'
  cases ms with
  | nil => rfl
  | cons m ms =>
    cases m with
    | input b => simp [HostMove.byte] at hq'
    | close => simp at hc'

/-- A run that never stops and is RUNNING only finitely often is blocked: from its last RUNNING state on it waits, and
a turn with a move would end the wait. -/
theorem blockedUnder_of_not_running {σ : Schedule} {s : State} {n : Nat} (hall : ∀ m, ∃ t, ReachesUnder σ m s t)
    (hn : ∀ m t, n ≤ m → ReachesUnder σ m s t → t.run ≠ .running) : BlockedUnder σ s := by
  have hheld : ∀ m t, n + 1 ≤ m → ReachesUnder σ m s t → ∃ k, Held k t := fun m t hm ht => by
    obtain ⟨m, rfl⟩ := Nat.exists_eq_add_one_of_ne_zero (Nat.ne_zero_of_lt hm)
    obtain ⟨u, hu, hstep⟩ := reachesUnder_succ.mp ht
    exact (held_of_stepUnder hstep (hn m u (Nat.le_of_succ_le_succ hm) hu) (hn _ t (Nat.le_of_succ_le hm) ht)).2
  obtain ⟨t, ht⟩ := hall (n + 1)
  obtain ⟨k, hr, hq, hc⟩ := hheld _ t (Nat.le_refl _) ht
  refine ⟨n + 1, t, k, ht, hr, hq, hc, fun m hm => ?_⟩
  obtain ⟨v, hv⟩ := hall (m + 1)
  obtain ⟨u, hu, hstep⟩ := reachesUnder_succ.mp hv
  obtain ⟨-, -, -, hcu⟩ := hheld m u hm hu
  obtain ⟨hconsole, -, -, hqv, hcv⟩ :=
    held_of_stepUnder hstep (hn m u (Nat.le_of_succ_le hm) hu) (hn _ v (Nat.le_succ_of_le (Nat.le_of_succ_le hm)) hv)
  exact eq_nil_of_hostMoves_held hcu (hconsole ▸ hqv) (hconsole ▸ hcv)

theorem reachesUnder_of_not_stopped {σ : Schedule} {s : State} (h : ∀ n t, ReachesUnder σ n s t → ¬Stopped t)
    (n : Nat) : ∃ t, ReachesUnder σ n s t := by
  induction n with
  | zero => exact ⟨s, reachesUnder_zero σ s⟩
  | succ n ih =>
    obtain ⟨t, ht⟩ := ih
    obtain ⟨u, hu⟩ := stepUnder_next_of_not_stopped (h n t ht) (σ n)
    exact ⟨u, reachesUnder_succ.mpr ⟨t, ht, hu⟩⟩

theorem endsUnder_some_way (σ : Schedule) (s : State) :
    EndsNormallyUnder σ s ∨ EndsInErrorUnder σ s ∨ BlockedUnder σ s ∨ RunsForeverUnder σ s := by
  by_cases hstop : ∃ n t, ReachesUnder σ n s t ∧ Stopped t
  · obtain ⟨n, t, ht, hr | ⟨r, hr⟩⟩ := hstop
    · exact .inl ⟨n, t, ht, hr⟩
    · exact .inr (.inl ⟨n, t, r, ht, hr⟩)
  · have hall := reachesUnder_of_not_stopped fun n t ht hs => hstop ⟨n, t, ht, hs⟩
    by_cases hf : RunsForeverUnder σ s
    · exact .inr (.inr (.inr hf))
    · obtain ⟨n, hn⟩ := not_forall.mp hf
      exact .inr (.inr (.inl (blockedUnder_of_not_running hall fun m t hm ht hr => hn ⟨m, t, hm, ht, hr⟩)))

theorem exactlyOneOf_endsUnder (σ : Schedule) (s : State) :
    ExactlyOneOf (EndsNormallyUnder σ s) (EndsInErrorUnder σ s) (BlockedUnder σ s) (RunsForeverUnder σ s) := by
  refine exactlyOneOf_of_pairwise (endsUnder_some_way σ s) ?_
    (fun ⟨n, t, ht, hr⟩ hb => not_stopped_of_blockedUnder hb ht (.inl hr))
    (fun ⟨n, t, ht, hr⟩ hf => not_stopped_of_runsForeverUnder hf ht (.inl hr))
    (fun ⟨n, t, r, ht, hr⟩ hb => not_stopped_of_blockedUnder hb ht (.inr ⟨r, hr⟩))
    (fun ⟨n, t, r, ht, hr⟩ hf => not_stopped_of_runsForeverUnder hf ht (.inr ⟨r, hr⟩))
    not_runsForeverUnder_of_blockedUnder
  rintro ⟨n, t, ht, hr⟩ ⟨m, u, r, hu, hr'⟩
  rw [stopped_unique ht (.inl hr) hu (.inr ⟨r, hr'⟩), hr'] at hr
  cases hr

/-- Settles O58: a run stops, or is RUNNING for ever again, or waits from some step on, and the three exclude each
other. -/
theorem runEndsInExactlyOneWayUnderEverySchedule : Obligations.RunEndsInExactlyOneWayUnderEverySchedule := by
  unfold Obligations.RunEndsInExactlyOneWayUnderEverySchedule
  exact exactlyOneOf_endsUnder

/-! ## The finite schedule as an unending one -/

theorem exec_host {i : Instr} {s t : State} (h : exec i s = .next t) : t.host = s.host :=
  exec_keeps (P := fun u => u.host = s.host) h (fun _ _ _ _ hu => hu) (fun _ _ _ hu => hu) (fun _ _ _ hu => hu)
    (fun _ u a v hu => (u.memWrite_host a v).trans hu) (fun u a hu => (u.afterRead_host a).trans hu) (fun _ _ hu => hu)
    (fun _ _ hu => hu) rfl

theorem completeWait_host (s : State) (k : WaitKind) : (s.completeWait k).host = s.host := by
  rcases completeWait_cases s k with ⟨b, rest, -, h⟩ | ⟨-, -, h⟩ | ⟨-, -, h⟩ <;> rw [h] <;> rfl

theorem State.consolePoll_setHost (s : State) (h : List (List HostMove)) :
    (s.setHost h).consolePoll = (s.consolePoll.1, s.consolePoll.2.setHost h) := by
  unfold State.consolePoll
  rw [State.setHost_console]
  cases s.console.inQueue with
  | cons b rest => rfl
  | nil => cases s.console.inClosed <;> rfl

theorem completeWait_setHost (s : State) (k : WaitKind) (h : List (List HostMove)) :
    (s.setHost h).completeWait k = (s.completeWait k).setHost h := by
  cases k with
  | getc =>
    rw [State.completeWait, State.completeWait, State.getcComplete, State.getcComplete, State.consolePoll_setHost]
    rcases s.consolePoll with ⟨_ | _ | _, u⟩ <;> rfl
  | inChar =>
    rw [State.completeWait, State.completeWait, State.inComplete, State.inComplete, State.consolePoll_setHost]
    rcases s.consolePoll with ⟨_ | _ | _, u⟩ <;> rfl

/-- Every step uses up one turn. -/
theorem step_host {s t : State} (h : step s = .next t) : t.host = s.host.tail := by
  rcases step_cases h with ⟨-, w, hexec, -⟩ | ⟨k, -, -, rfl⟩ | ⟨k, -, -, -, rfl⟩
  · exact (exec_host hexec).trans ((State.afterRead_host _ _).trans s.hostTurn_host)
  · exact (completeWait_host _ k).trans s.hostTurn_host
  · exact s.hostTurn_host

theorem reaches_host {n : Nat} {s t : State} (h : Reaches n s t) : t.host = s.host.drop n := by
  induction n generalizing t with
  | zero => cases h; rfl
  | succ n ih =>
    obtain ⟨u, hu, hstep⟩ := reaches_succ_last.mp h
    rw [step_host hstep, ih hu, List.tail_drop]

/-- The next turn of the schedule that the state carries, taken as a schedule of one turn. -/
theorem State.hostTurn_setHost_headD (s : State) :
    (s.setHost [s.host.headD []]).hostTurn = s.hostTurn.setHost [] := by
  rw [State.hostTurn_setHost_singleton]
  cases hh : s.host with
  | nil => rw [State.hostTurn_of_nil hh]; rfl
  | cons ms rest => rw [State.hostTurn_of_cons hh]; rfl

/-- A step under the schedule that the state carries is the step under its next turn. -/
theorem stepUnder_of_step {s t : State} (h : step s = .next t) :
    stepUnder (s.host.headD []) s = .next (t.setHost []) := by
  have hturn := s.hostTurn_setHost_headD
  rcases step_cases h with ⟨hr, w, hexec, rfl⟩ | ⟨k, hr, hi, rfl⟩ | ⟨k, hr, hi, -, rfl⟩
  · rw [stepUnder, step_running (s := s.setHost [s.host.headD []]) hr, hturn, State.memRead_setHost]
    exact instructionsDoNotSeeTheHostSchedule _ _ _ [] hexec
  · rw [stepUnder, step_waiting (s := s.setHost [s.host.headD []]) hr (hturn ▸ hi), hturn, completeWait_setHost]
  · rw [stepUnder, step_held (s := s.setHost [s.host.headD []]) hr (hturn ▸ hi), hturn]
    rfl

/-- What a step under a turn gives does not depend on the schedule that the state carries. -/
theorem stepUnder_congr {s t : State} (h : s.setHost [] = t.setHost []) (ms : List HostMove) :
    stepUnder ms s = stepUnder ms t := by
  have hstep := congrArg (fun u : State => step (u.setHost [ms])) h
  exact hstep

/-- A run under the schedule that the state carries is, but for that schedule, the run under its unending form. -/
theorem reachesUnder_of_reaches {n : Nat} {s t : State} (h : Reaches n s t) :
    ∃ u, ReachesUnder (Schedule.ofTurns s.host) n s u ∧ u.setHost [] = t.setHost [] := by
  induction n generalizing t with
  | zero => cases h; exact ⟨s, reachesUnder_zero _ s, rfl⟩
  | succ n ih =>
    obtain ⟨v, hv, hstep⟩ := reaches_succ_last.mp h
    obtain ⟨u, hu, huv⟩ := ih hv
    have hturn : Schedule.ofTurns s.host n = v.host.headD [] := by
      rw [reaches_host hv, Schedule.ofTurns, List.headD_eq_head?_getD, List.head?_drop, List.getD_eq_getElem?_getD]
    refine ⟨t.setHost [], reachesUnder_succ.mpr ⟨u, hu, ?_⟩, rfl⟩
    rw [stepUnder_congr huv, hturn]
    exact stepUnder_of_step hstep

/-- The model's own schedule aside, states that agree have the same run state and Console. -/
theorem run_console_of_setHost_eq {s t : State} (h : s.setHost [] = t.setHost []) :
    s.run = t.run ∧ s.console = t.console := by
  have hrun := congrArg State.run h
  have hconsole := congrArg State.console h
  exact ⟨hrun, hconsole⟩

/-- Where `step` answers a hold there is no turn to come, no byte queued and input open. -/
theorem step_eq_fault_held_iff {k : WaitKind} {t : State} : step t = .fault (.held k) ↔ Held k t ∧ t.host = [] := by
  constructor
  · intro h
    rcases step_not_next (step_ne_next_of_fault h) with ⟨-, h'⟩ | ⟨r, -, h'⟩ | ⟨k', hr, h'⟩
    · rw [h] at h'; cases h'
    · rw [h] at h'; cases h'
    · rw [h] at h'
      cases h'
      cases hi : t.hostTurn.inputReady with
      | true => rw [step_waiting hr hi] at h; cases h
      | false =>
        rw [step_held hr hi] at h
        split at h
        case isTrue hnil =>
          have hnil := List.isEmpty_iff.mp hnil
          rw [State.hostTurn_of_nil hnil] at hi
          exact ⟨⟨hr, State.inputReady_eq_false.mp hi⟩, hnil⟩
        case isFalse => cases h
  · rintro ⟨⟨hr, hq, hc⟩, hnil⟩
    rw [step_held hr (by rw [State.hostTurn_of_nil hnil]; exact State.inputReady_eq_false.mpr ⟨hq, hc⟩), hnil]
    rfl

theorem ofTurns_of_le {h : List (List HostMove)} {n : Nat} (hn : h.length ≤ n) : Schedule.ofTurns h n = [] :=
  List.getD_eq_default _ _ hn

theorem blockedUnder_of_comesToHold {s : State} (h : ComesToHold s) : BlockedUnder (Schedule.ofTurns s.host) s := by
  obtain ⟨n, t, k, ht, hstep⟩ := h
  obtain ⟨⟨hr, hq, hc⟩, hnil⟩ := step_eq_fault_held_iff.mp hstep
  obtain ⟨u, hu, hut⟩ := reachesUnder_of_reaches ht
  obtain ⟨hrun, hconsole⟩ := run_console_of_setHost_eq hut
  rw [reaches_host ht, List.drop_eq_nil_iff] at hnil
  exact ⟨n, u, k, hu, hrun.trans hr, hconsole ▸ hq, hconsole ▸ hc, fun m hm => ofTurns_of_le (Nat.le_trans hnil hm)⟩

/-- A run that is blocked under the unending form comes to a hold once the turns are used up. -/
theorem not_blockedUnder_of_runsForever {s : State} (h : RunsForever s) :
    ¬BlockedUnder (Schedule.ofTurns s.host) s := fun hb => by
  obtain ⟨n, t, k, ht, hr, hq, hc, hσ⟩ := hb
  obtain ⟨u, hu, hku⟩ := held_of_no_moves ht ⟨hr, hq, hc⟩ hσ (Nat.le_max_left n s.host.length)
  obtain ⟨v, hv⟩ := h (max n s.host.length)
  obtain ⟨u', hu', huv⟩ := reachesUnder_of_reaches hv
  obtain ⟨hrun, hconsole⟩ := run_console_of_setHost_eq huv
  obtain ⟨hru, hqu, hcu⟩ := reachesUnder_unique hu hu' ▸ hku
  have hnil : v.host = [] := by rw [reaches_host hv, List.drop_eq_nil_iff]; exact Nat.le_max_right _ _
  exact not_endsBy_of_runsForever h (.held k)
    ⟨_, v, hv, step_eq_fault_held_iff.mpr ⟨⟨hrun ▸ hru, hconsole ▸ hqu, hconsole ▸ hcu⟩, hnil⟩⟩

theorem runsForeverUnder_of_runsForever {s : State} (h : RunsForever s) :
    RunsForeverUnder (Schedule.ofTurns s.host) s := by
  have hnever : ∀ n t, ReachesUnder (Schedule.ofTurns s.host) n s t → ¬Stopped t := fun n t ht hs => by
    obtain ⟨v, hv⟩ := h (n + 1)
    obtain ⟨u, hu, -⟩ := reachesUnder_of_reaches hv
    exact absurd (reachesUnder_le_of_stopped ht hs hu) (Nat.not_succ_le_self n)
  rcases endsUnder_some_way (Schedule.ofTurns s.host) s with ⟨n, t, ht, hr⟩ | ⟨n, t, r, ht, hr⟩ | hb | hf
  · exact absurd (.inl hr) (hnever n t ht)
  · exact absurd (.inr ⟨r, hr⟩) (hnever n t ht)
  · exact absurd hb (not_blockedUnder_of_runsForever h)
  · exact hf

/-- Settles O59: each way of ending under the finite schedule is the same way under its unending form, and exactly one
way holds under either. -/
theorem finiteSchedulesAreUnendingOnes : Obligations.FiniteSchedulesAreUnendingOnes := by
  unfold Obligations.FiniteSchedulesAreUnendingOnes
  intro s
  refine ExactlyOneOf.iff_of_imp (runEndsInExactlyOneWay s) (exactlyOneOf_endsUnder _ s) ?_ ?_
    blockedUnder_of_comesToHold runsForeverUnder_of_runsForever
  · rintro ⟨n, t, ht, hr⟩
    obtain ⟨u, hu, hut⟩ := reachesUnder_of_reaches ht
    exact ⟨n, u, hu, (run_console_of_setHost_eq hut).1.trans hr⟩
  · rintro ⟨n, t, r, ht, hr⟩
    obtain ⟨u, hu, hut⟩ := reachesUnder_of_reaches ht
    exact ⟨n, u, r, hu, (run_console_of_setHost_eq hut).1.trans hr⟩

end Sys2Proof.Machine
